-- ==== Sys2Proof/Word.lean ====
section
/-!
DEFINITION. The word types of the CHIP-8 core (spec 00_scope.md R6, R8, R9). Every value is an unsigned number of a
fixed width, so a `BitVec` of that width; counts and grid coordinates are `Nat`.
-/

namespace Sys2Proof

/-- A byte of memory and the width of `V[i]`, `RPL[i]`, `SP`, `DT`, `ST` (R6). -/
abbrev Byte := BitVec 8

/-- An instruction word and the width of `I` and `PC` (R6, R70). -/
abbrev Word := BitVec 16

/-- The index of a general register or of an RPL entry, 0 to 15 (R21, R26). -/
abbrev RegIx := BitVec 4

/-- A 4-bit immediate: sprite height or scroll rows (R71). -/
abbrev Nibble := BitVec 4

/-- A 12-bit address immediate `nnn` (R71). -/
abbrev Addr := BitVec 12

/-- One of the 16 symbolic keys (R6, R249). -/
abbrev KeyId := BitVec 4

/-- The state of the 16 keys at one query: entry `k` says whether key `k` is pressed (R249). -/
abbrev KeySample := Vector Bool 16

/-- The flag register's index: `V[0xF]` (R22). -/
abbrev flagReg : RegIx := 0xF

end Sys2Proof
end

