-- ==== Sys2Proof/Syntax.lean ====
section
/-!
DEFINITION. The instructions: one constructor for each of the 44 rows of spec/opcode_table.json, in the table's order.
Operands are the fields of R71 that the row names; bits that a row ignores are no operand (R72, R75, R79).
-/

namespace Sys2Proof

inductive Instr where
  /-- `CLS`, R101. -/
  | cls
  /-- `RETURN`, R102. -/
  | ret
  /-- `SCD n`, R103. -/
  | scd (n : Nibble)
  /-- `SCR`, R104. -/
  | scr
  /-- `SCL`, R105. -/
  | scl
  /-- `EXIT`, R106. -/
  | exit
  /-- `LOW`, R107. -/
  | low
  /-- `HIGH`, R108. -/
  | high
  /-- `SYS nnn`, R100. -/
  | sys (nnn : Addr)
  /-- `JP nnn`, R121. -/
  | jp (nnn : Addr)
  /-- `CALL nnn`, R122. -/
  | call (nnn : Addr)
  /-- `SE Vx, kk`, R123. -/
  | seImm (x : RegIx) (kk : Byte)
  /-- `SNE Vx, kk`, R124. -/
  | sneImm (x : RegIx) (kk : Byte)
  /-- `SE Vx, Vy`, R125. -/
  | seReg (x y : RegIx)
  /-- `LD Vx, kk`, R140. -/
  | ldImm (x : RegIx) (kk : Byte)
  /-- `ADD Vx, kk`, R141. -/
  | addImm (x : RegIx) (kk : Byte)
  /-- `LD Vx, Vy`, R143. -/
  | ldReg (x y : RegIx)
  /-- `OR Vx, Vy`, R144. -/
  | orReg (x y : RegIx)
  /-- `AND Vx, Vy`, R145. -/
  | andReg (x y : RegIx)
  /-- `XOR Vx, Vy`, R146. -/
  | xorReg (x y : RegIx)
  /-- `ADD Vx, Vy`, R147. -/
  | addReg (x y : RegIx)
  /-- `SUB Vx, Vy`, R148. -/
  | subReg (x y : RegIx)
  /-- `SHR Vx`, R149. -/
  | shr (x : RegIx)
  /-- `SUBN Vx, Vy`, R150. -/
  | subnReg (x y : RegIx)
  /-- `SHL Vx`, R151. -/
  | shl (x : RegIx)
  /-- `SNE Vx, Vy`, R126. -/
  | sneReg (x y : RegIx)
  /-- `LD I, nnn`, R152. -/
  | ldI (nnn : Addr)
  /-- `JP I, nnn`, R127. -/
  | jpI (nnn : Addr)
  /-- `RND Vx, kk`, R153. -/
  | rnd (x : RegIx) (kk : Byte)
  /-- `DRW Vx, Vy, n`, R178. -/
  | drw (x y : RegIx) (n : Nibble)
  /-- `SKPR Vx`, R191. -/
  | skpr (x : RegIx)
  /-- `SKUP Vx`, R192. -/
  | skup (x : RegIx)
  /-- `LD Vx, DT`, R200. -/
  | ldFromDt (x : RegIx)
  /-- `LD Vx, K`, R201. -/
  | ldKey (x : RegIx)
  /-- `LD DT, Vx`, R202. -/
  | ldDt (x : RegIx)
  /-- `LD ST, Vx`, R203. -/
  | ldSt (x : RegIx)
  /-- `ADD I, Vx`, R204. -/
  | addI (x : RegIx)
  /-- `LD F, Vx`, R205. -/
  | ldF (x : RegIx)
  /-- `LD HF, Vx`, R206. -/
  | ldHf (x : RegIx)
  /-- `BCD Vx`, R207. -/
  | bcd (x : RegIx)
  /-- `LD [I], Vx`, R208. -/
  | storeRegs (x : RegIx)
  /-- `LD Vx, [I]`, R209. -/
  | loadRegs (x : RegIx)
  /-- `LD R, Vx`, R210. -/
  | storeRpl (x : RegIx)
  /-- `LD Vx, R`, R211. -/
  | loadRpl (x : RegIx)
  deriving DecidableEq, Repr

end Sys2Proof
end

