-- ==== Sys2Proof/WellFormed.lean ====
section
/-!
DEFINITION. Which instruction terms have an encoding. The types of the operands admit exactly the values of their fields
(R71, R73), so one check is left: `SYS nnn` is a no-op word only when its low byte selects no other 0x0 instruction (R75,
R100).
-/

namespace Sys2Proof

/-- The low bytes of the 0x0 family that select an instruction other than `SYS` (R75). -/
def isListedSystemByte (kk : Byte) : Bool :=
  kk.extractLsb' 4 4 == 0xC#4 ||
    kk == 0xE0#8 || kk == 0xEE#8 || kk == 0xFB#8 || kk == 0xFC#8 || kk == 0xFD#8 || kk == 0xFE#8 || kk == 0xFF#8

/-- The instruction has an encoding. -/
def Instr.wf : Instr → Bool
  | .sys nnn => !isListedSystemByte (nnn.extractLsb' 0 8)
  | .cls | .ret | .scd _ | .scr | .scl | .exit | .low | .high => true
  | .jp _ | .call _ | .seImm _ _ | .sneImm _ _ | .seReg _ _ | .sneReg _ _ | .jpI _ => true
  | .ldImm _ _ | .addImm _ _ | .ldReg _ _ | .orReg _ _ | .andReg _ _ | .xorReg _ _ => true
  | .addReg _ _ | .subReg _ _ | .shr _ | .subnReg _ _ | .shl _ | .ldI _ | .rnd _ _ => true
  | .drw _ _ _ | .skpr _ | .skup _ => true
  | .ldFromDt _ | .ldKey _ | .ldDt _ | .ldSt _ | .addI _ | .ldF _ | .ldHf _ => true
  | .bcd _ | .storeRegs _ | .loadRegs _ | .storeRpl _ | .loadRpl _ => true

end Sys2Proof
end

