-- ==== Sys2Proof/Decode.lean ====
section
/-!
DEFINITION. The decoder, total on any bytes and rejecting by name (spec 30_encoding.md R70 to R82), and after it the
encoder (R83). Instruction words are big-endian in memory (R52).
-/

namespace Sys2Proof

/-! ## Fields of a word (R71) -/

/-- `op = w[15:12]`. -/
def opOf (w : Word) : BitVec 4 := w.extractLsb' 12 4

/-- `x = w[11:8]`. -/
def xOf (w : Word) : RegIx := w.extractLsb' 8 4

/-- `y = w[7:4]` (D8). -/
def yOf (w : Word) : RegIx := w.extractLsb' 4 4

/-- `n = w[3:0]`. -/
def nOf (w : Word) : Nibble := w.extractLsb' 0 4

/-- `kk = w[7:0]`. -/
def kkOf (w : Word) : Byte := w.extractLsb' 0 8

/-- `nnn = w[11:0]` (D8). -/
def nnnOf (w : Word) : Addr := w.extractLsb' 0 12

/-! ## Decoding -/

/-- Why bytes are no instruction. The three illegal levels are those of R80. -/
inductive DecodeError where
  /-- An 0x8 word whose low nibble is no operation of R76. -/
  | unknownAlu (w : Word)
  /-- An 0xE word whose low byte is none of R77. -/
  | unknownKeyOp (w : Word)
  /-- An 0xF word whose low byte is none of R78. -/
  | unknownMisc (w : Word)
  /-- Fewer than two bytes: no word at all. The machine never meets this, since a fetch reads two bytes (R52). -/
  | tooShort
  deriving DecidableEq, Repr

/-- The 0x0 family, on the low byte; bits 11:8 are not examined (R75, D5). -/
def decodeSystem (w : Word) : Instr :=
  if yOf w = 0xC then .scd (nOf w)
  else if kkOf w = 0xE0 then .cls
  else if kkOf w = 0xEE then .ret
  else if kkOf w = 0xFB then .scr
  else if kkOf w = 0xFC then .scl
  else if kkOf w = 0xFD then .exit
  else if kkOf w = 0xFE then .low
  else if kkOf w = 0xFF then .high
  else .sys (nnnOf w)

/-- The 0x8 family, on the low nibble (R76, D7). `SHR` and `SHL` ignore `y` (R149, R151). -/
def decodeAlu (w : Word) : Except DecodeError Instr :=
  if nOf w = 0x0 then .ok (.ldReg (xOf w) (yOf w))
  else if nOf w = 0x1 then .ok (.orReg (xOf w) (yOf w))
  else if nOf w = 0x2 then .ok (.andReg (xOf w) (yOf w))
  else if nOf w = 0x3 then .ok (.xorReg (xOf w) (yOf w))
  else if nOf w = 0x4 then .ok (.addReg (xOf w) (yOf w))
  else if nOf w = 0x5 then .ok (.subReg (xOf w) (yOf w))
  else if nOf w = 0x6 then .ok (.shr (xOf w))
  else if nOf w = 0x7 then .ok (.subnReg (xOf w) (yOf w))
  else if nOf w = 0xE then .ok (.shl (xOf w))
  else .error (.unknownAlu w)

/-- The 0xE family, on the low byte (R77, D7). -/
def decodeKeyOp (w : Word) : Except DecodeError Instr :=
  if kkOf w = 0x9E then .ok (.skpr (xOf w))
  else if kkOf w = 0xA1 then .ok (.skup (xOf w))
  else .error (.unknownKeyOp w)

/-- The 0xF family, on the low byte (R78, D7). -/
def decodeMisc (w : Word) : Except DecodeError Instr :=
  if kkOf w = 0x07 then .ok (.ldFromDt (xOf w))
  else if kkOf w = 0x0A then .ok (.ldKey (xOf w))
  else if kkOf w = 0x15 then .ok (.ldDt (xOf w))
  else if kkOf w = 0x18 then .ok (.ldSt (xOf w))
  else if kkOf w = 0x1E then .ok (.addI (xOf w))
  else if kkOf w = 0x29 then .ok (.ldF (xOf w))
  else if kkOf w = 0x30 then .ok (.ldHf (xOf w))
  else if kkOf w = 0x33 then .ok (.bcd (xOf w))
  else if kkOf w = 0x55 then .ok (.storeRegs (xOf w))
  else if kkOf w = 0x65 then .ok (.loadRegs (xOf w))
  else if kkOf w = 0x75 then .ok (.storeRpl (xOf w))
  else if kkOf w = 0x85 then .ok (.loadRpl (xOf w))
  else .error (.unknownMisc w)

/-- The first level, on the primary nibble (R74). The last arm is `op = 0xF`, the only nibble left. -/
def decodeWord (w : Word) : Except DecodeError Instr :=
  if opOf w = 0x0 then .ok (decodeSystem w)
  else if opOf w = 0x1 then .ok (.jp (nnnOf w))
  else if opOf w = 0x2 then .ok (.call (nnnOf w))
  else if opOf w = 0x3 then .ok (.seImm (xOf w) (kkOf w))
  else if opOf w = 0x4 then .ok (.sneImm (xOf w) (kkOf w))
  else if opOf w = 0x5 then .ok (.seReg (xOf w) (yOf w))
  else if opOf w = 0x6 then .ok (.ldImm (xOf w) (kkOf w))
  else if opOf w = 0x7 then .ok (.addImm (xOf w) (kkOf w))
  else if opOf w = 0x8 then decodeAlu w
  else if opOf w = 0x9 then .ok (.sneReg (xOf w) (yOf w))
  else if opOf w = 0xA then .ok (.ldI (nnnOf w))
  else if opOf w = 0xB then .ok (.jpI (nnnOf w))
  else if opOf w = 0xC then .ok (.rnd (xOf w) (kkOf w))
  else if opOf w = 0xD then .ok (.drw (xOf w) (yOf w) (nOf w))
  else if opOf w = 0xE then decodeKeyOp w
  else decodeMisc w

/-- The word of two bytes in memory order: the first byte is the high byte (R52). -/
def wordOfBytes (first second : Byte) : Word := first ++ second

/-- Decoding bytes: the instruction and the bytes after its word. -/
def decode : List Byte → Except DecodeError (Instr × List Byte)
  | first :: second :: rest => (decodeWord (wordOfBytes first second)).map fun i => (i, rest)
  | [_] | [] => .error .tooShort

/-! ## Encoding -/

/-- Format `NNN`: `oooo nnnn nnnn nnnn` (R72). -/
def wordNNN (op : BitVec 4) (nnn : Addr) : Word := op ++ nnn

/-- Formats `XKK` and `XS`: `oooo xxxx kkkk kkkk` (R72). -/
def wordXKK (op : BitVec 4) (x : RegIx) (kk : Byte) : Word := op ++ x ++ kk

/-- Formats `XYN`, `XYS` and `XY`: `oooo xxxx yyyy nnnn` (R72). -/
def wordXYN (op : BitVec 4) (x y : RegIx) (n : Nibble) : Word := op ++ x ++ y ++ n

/-- The word of an instruction, 0 in every ignored field (R72, R83). -/
def encode : Instr → Word
  | .cls => 0x00E0
  | .ret => 0x00EE
  | .scd n => wordXYN 0x0 0x0 0xC n
  | .scr => 0x00FB
  | .scl => 0x00FC
  | .exit => 0x00FD
  | .low => 0x00FE
  | .high => 0x00FF
  | .sys nnn => wordNNN 0x0 nnn
  | .jp nnn => wordNNN 0x1 nnn
  | .call nnn => wordNNN 0x2 nnn
  | .seImm x kk => wordXKK 0x3 x kk
  | .sneImm x kk => wordXKK 0x4 x kk
  | .seReg x y => wordXYN 0x5 x y 0x0
  | .ldImm x kk => wordXKK 0x6 x kk
  | .addImm x kk => wordXKK 0x7 x kk
  | .ldReg x y => wordXYN 0x8 x y 0x0
  | .orReg x y => wordXYN 0x8 x y 0x1
  | .andReg x y => wordXYN 0x8 x y 0x2
  | .xorReg x y => wordXYN 0x8 x y 0x3
  | .addReg x y => wordXYN 0x8 x y 0x4
  | .subReg x y => wordXYN 0x8 x y 0x5
  | .shr x => wordXKK 0x8 x 0x06
  | .subnReg x y => wordXYN 0x8 x y 0x7
  | .shl x => wordXKK 0x8 x 0x0E
  | .sneReg x y => wordXYN 0x9 x y 0x0
  | .ldI nnn => wordNNN 0xA nnn
  | .jpI nnn => wordNNN 0xB nnn
  | .rnd x kk => wordXKK 0xC x kk
  | .drw x y n => wordXYN 0xD x y n
  | .skpr x => wordXKK 0xE x 0x9E
  | .skup x => wordXKK 0xE x 0xA1
  | .ldFromDt x => wordXKK 0xF x 0x07
  | .ldKey x => wordXKK 0xF x 0x0A
  | .ldDt x => wordXKK 0xF x 0x15
  | .ldSt x => wordXKK 0xF x 0x18
  | .addI x => wordXKK 0xF x 0x1E
  | .ldF x => wordXKK 0xF x 0x29
  | .ldHf x => wordXKK 0xF x 0x30
  | .bcd x => wordXKK 0xF x 0x33
  | .storeRegs x => wordXKK 0xF x 0x55
  | .loadRegs x => wordXKK 0xF x 0x65
  | .storeRpl x => wordXKK 0xF x 0x75
  | .loadRpl x => wordXKK 0xF x 0x85

/-- The bits of an instruction's word that its opcode row does not ignore (R72, R75, R79; the rows' fields). -/
def significantBits : Instr → Word
  | .cls | .ret | .scd _ | .scr | .scl | .exit | .low | .high => 0xF0FF
  | .seReg _ _ | .sneReg _ _ => 0xFFF0
  | .shr _ | .shl _ => 0xFF0F
  | .sys _ | .jp _ | .call _ | .ldI _ | .jpI _ => 0xFFFF
  | .seImm _ _ | .sneImm _ _ | .ldImm _ _ | .addImm _ _ | .rnd _ _ => 0xFFFF
  | .ldReg _ _ | .orReg _ _ | .andReg _ _ | .xorReg _ _ | .addReg _ _ | .subReg _ _ | .subnReg _ _ => 0xFFFF
  | .drw _ _ _ | .skpr _ | .skup _ => 0xFFFF
  | .ldFromDt _ | .ldKey _ | .ldDt _ | .ldSt _ | .addI _ | .ldF _ | .ldHf _ => 0xFFFF
  | .bcd _ | .storeRegs _ | .loadRegs _ | .storeRpl _ | .loadRpl _ => 0xFFFF

/-- An instruction's bytes in memory order (R52). -/
def encodeBytes (i : Instr) : List Byte :=
  [(encode i).extractLsb' 8 8, (encode i).extractLsb' 0 8]

/-! ## The host's view of the decoder -/

/-- The two bytes, in memory order, of an instruction whose opcode-table bits are `w`: one 16-bit word, high byte first. -/
def tableBytes (nbits w : Nat) : Byte × Byte :=
  let word : Word := BitVec.ofNat 16 (w % 2 ^ nbits)
  (word.extractLsb' 8 8, word.extractLsb' 0 8)

/-- The instruction the decoder reads from an opcode-table word. -/
def decodeTableWord (nbits w : Nat) : Option Instr :=
  match decode [(tableBytes nbits w).1, (tableBytes nbits w).2] with
  | .ok (i, _) => some i
  | .error _ => none

end Sys2Proof
end

