-- ==== Sys2Proof/Config.lean ====
section
/-!
DEFINITION. The open parameters of the block (spec 00_scope.md R7) for which no value may be assumed. Each is an opaque
constant without a body, applied to the counter `draws` of State, so that no two draws are related and no proof can see
a value. The fixed parameters of R6 stand in Sys2Proof/Machine/Params.lean.
-/

namespace Sys2Proof

/-- The free value that `RND` takes from `RAND` when the host has presented none (R7, R153, R250; log 2). -/
opaque Config.freeRandom : Nat → Byte

/-- The free key state that a key query finds when the host has presented none (R7, R249; log 3). -/
opaque Config.freeKeys : Nat → KeySample

end Sys2Proof
end

