-- ==== Sys2Proof/Machine/Params.lean ====
section
/-!
DEFINITION. The fixed parameters of the block (spec 00_scope.md R6). Widths are the types of Sys2Proof/Word.lean; the
grid's dimensions stand with the mode in Sys2Proof/Machine/Framebuffer.lean.
-/

namespace Sys2Proof.Machine

/-- `MEM_SIZE`. -/
def memSize : Nat := 4096

/-- `PC_RESET`. -/
def pcReset : Word := 0x200

/-- `SP_RESET`. -/
def spReset : Byte := 0x52

/-- `STACK_MAX_SP`: the largest `SP` at which a call may push (D4). -/
def stackMaxSp : Nat := 0xFD

/-- `STACK_MIN_SP`: the smallest `SP` at which a return may pop (D4). -/
def stackMinSp : Nat := 2

/-- `HSCROLL`: columns moved by a horizontal scroll. -/
def hScroll : Nat := 4

/-- `GLYPH_NORMAL`: bytes per normal glyph. -/
def glyphNormal : Nat := 5

/-- `GLYPH_EXT`: bytes per extended glyph. -/
def glyphExt : Nat := 10

/-- Bytes per instruction: every instruction is one 16-bit word (R70). -/
def instrBytes : Word := 2

/-- The largest key number (`NKEYS` is 16; R190). -/
def maxKey : Nat := 15

end Sys2Proof.Machine
end

