-- ==== Sys2Proof/Machine/Framebuffer.lean ====
section
/-!
DEFINITION. The display mode and the pixel grid (spec 10_state.md R28, R29; 43_draw.md R170 to R177) as operations on
plain grids. State's operations call these.
-/

namespace Sys2Proof.Machine

/-- `Mode` (R28). -/
inductive Mode where
  | normal
  | extended
  deriving DecidableEq, Repr

/-- `W` of the mode (R28, R170). -/
def Mode.width : Mode → Nat
  | .normal => 64
  | .extended => 128

/-- `H` of the mode (R28, R170). -/
def Mode.height : Mode → Nat
  | .normal => 32
  | .extended => 64

/-- A pixel grid: rows from the top, in each row the columns from the left; `true` is a lit pixel (R29). -/
abbrev Grid := List (List Bool)

/-- The grid has `h` rows of `w` pixels (R29, R34). -/
abbrev Grid.shaped (w h : Nat) (g : Grid) : Prop := g.length = h ∧ ∀ row ∈ g, row.length = w

/-- `FB[x][y]` (R29). -/
def Grid.pixel (g : Grid) (x y : Nat) : Bool := (g.getD y []).getD x false

/-- The grid with `FB[x][y]` written. -/
def Grid.setPixel (g : Grid) (x y : Nat) (b : Bool) : Grid := g.modify y fun row => row.set x b

/-- A row of `w` dark pixels. -/
def blankRow (w : Nat) : List Bool := List.replicate w false

/-- A dark grid of `w` columns and `h` rows (R171, R172). -/
def Grid.blank (w h : Nat) : Grid := List.replicate h (blankRow w)

/-- The rows moved down by `n`: `n` dark rows come in at the top, the `n` lowest are lost (R173). -/
def Grid.scrolledDown (w n : Nat) (g : Grid) : Grid :=
  List.replicate n (blankRow w) ++ g.take (g.length - n)

/-- The columns moved left by 4: 4 dark columns come in at the right, nothing wraps (R174). -/
def Grid.scrolledLeft (g : Grid) : Grid :=
  g.map fun row => row.drop hScroll ++ blankRow hScroll

/-- The columns moved right by 4: 4 dark columns come in at the left, nothing wraps (R175). -/
def Grid.scrolledRight (g : Grid) : Grid :=
  g.map fun row => blankRow hScroll ++ row.take (row.length - hScroll)

/-- `composite(px, py, b)` on the grid and the collision seen so far (R177). -/
def composite (px py : Nat) (b : Bool) (acc : Grid × Bool) : Grid × Bool :=
  let p := acc.1.pixel px py
  (acc.1.setPixel px py (p ^^ b), acc.2 || (p && b))

/-- One sprite row: its `wd` pixels from the left, columns wrapping at `w` (R178's inner loop). -/
def compositeRow (w wd sx py : Nat) (bit : Nat → Bool) (acc : Grid × Bool) : Grid × Bool :=
  (List.range wd).foldl (fun a c => composite ((sx + c) % w) py (bit c) a) acc

/-- A whole sprite of `rows` rows, rows wrapping at `h` (R178's outer loop). -/
def compositeSprite (w h wd rows sx sy : Nat) (bit : Nat → Nat → Bool) (acc : Grid × Bool) : Grid × Bool :=
  (List.range rows).foldl (fun a r => compositeRow w wd sx ((sy + r) % h) (bit r) a) acc

end Sys2Proof.Machine
end

