-- ==== Sys2Proof/Machine/Memory.lean ====
section
/-!
DEFINITION. Memory as plain data (spec 10_state.md R20, 20_memory.md R50, R51): the bytes that differ from what an
unlisted address reads as, by rising address. An unlisted address reads as 0, the value every byte has after construction
(R33, R271).
-/

namespace Sys2Proof.Machine

/-- The listed bytes of `Mem`. -/
abbrev Memory := List Host.Cell

/-- What an unlisted address reads as (R33). -/
def Memory.unlisted : Byte := 0

/-- The canonical form: addresses inside the space and strictly rising, no byte listed that reads the same unlisted. -/
abbrev Memory.wf (m : Memory) : Prop :=
  m.Pairwise (fun c d => c.1 < d.1) ∧ ∀ c ∈ m, c.1 < memSize ∧ c.2 ≠ Memory.unlisted

/-- The byte at address `a`. -/
def Memory.read : Memory → Nat → Byte
  | [], _ => Memory.unlisted
  | c :: m, a => if c.1 = a then c.2 else Memory.read m a

/-- `m` without an entry for address `a`. -/
def Memory.erased (m : Memory) (a : Nat) : Memory := m.filter fun c => c.1 != a

/-- `m` with the entry `(a, b)` put in before the first higher address. -/
def Memory.inserted (a : Nat) (b : Byte) : Memory → Memory
  | [] => [(a, b)]
  | c :: m => if a < c.1 then (a, b) :: c :: m else c :: Memory.inserted a b m

/-- `m` after byte `b` is stored at address `a`. -/
def Memory.write (m : Memory) (a : Nat) (b : Byte) : Memory :=
  if b = Memory.unlisted then m.erased a else Memory.inserted a b (m.erased a)

/-- The bus address of a 16-bit address: `addr & 0xFFF` (R50, R65). -/
def busAddr (a : Word) : Nat := (a &&& 0x0FFF).toNat

/-- `m` after `bytes` are stored at consecutive addresses from `a` on, unmasked (R64's copy loop). -/
def Memory.copyIn : Memory → Nat → List Byte → Memory
  | m, _, [] => m
  | m, a, b :: bytes => Memory.copyIn (m.write a b) (a + 1) bytes

end Sys2Proof.Machine
end

