-- ==== Sys2Proof/Machine/State.lean ====
section
/-!
DEFINITION. Everything the spec gives the machine (spec 10_state.md R20 to R33), as plain data, the block's faults
(60_exceptions.md R230) and the state after reset.
-/

namespace Sys2Proof.Machine

/-- The faults of the block, with the information each records (R230). The spec describes their entry (R236), so an
instruction that raises one answers a NEXT state whose `run` is `faulted`, and no step of the model ends in
`Host.Outcome.fault`; the type is what a transaction hands its caller (`stepReturn`, R236, R238). See log 1. -/
inductive Fault where
  /-- Raised by `step` on an illegal word, with the raw word (R231). Safe: the block stops here too. -/
  | unknownOpcode (raw : Word)
  /-- Raised by `CALL` with `SP > 0xFD`, with `SP` (R232). Safe: the block stops here too. -/
  | stackOverflow (sp : Byte)
  /-- Raised by `RETURN` with `SP < 2`, with `SP` (R233). Safe: the block stops here too. -/
  | stackUnderflow (sp : Byte)
  /-- Raised by `load` past the end of memory, with offset and length (R234). Safe: the block stops here too. -/
  | outOfBounds (offset : Word) (len : Nat)
  /-- Raised by `SKPR` and `SKUP` with `V[x] > 15`, with `V[x]` (R235). Safe: the block stops here too. -/
  | unknownKey (k : Byte)
  deriving DecidableEq, Repr

/-- Why the model gives no answer. -/
inductive Refusal where
  /-- Raised by an arm of `exec` whose instruction has no meaning yet; no arm is left so. Safe. -/
  | notModelled (mnemonic : String)
  /-- Raised by the host's display read outside the grid, which the spec leaves undefined (R180, D28). Safe: no claim
  about such a read can be proved. No instruction raises it. -/
  | pixelOutsideGrid
  deriving DecidableEq, Repr

/-- `Run` (R31). -/
inductive Run where
  | running
  | awaitingKey (r : RegIx)
  | halted
  | faulted (f : Fault)
  deriving DecidableEq, Repr

/-- The machine's state. -/
structure State where
  /-- `Mem` (R20). -/
  mem : Memory
  /-- `V[0..15]`, `V[0xF]` also the flag (R21, R22). -/
  v : Vector Byte 16
  /-- `I` (R23). -/
  i : Word
  /-- `PC` (R24). -/
  pc : Word
  /-- `SP` (R25). -/
  sp : Byte
  /-- `RPL[0..15]` (R26). -/
  rpl : Vector Byte 16
  /-- `DT` (R27). -/
  dt : Byte
  /-- `ST` (R27). -/
  st : Byte
  /-- `Mode` (R28). -/
  mode : Mode
  /-- `FB` (R29). -/
  fb : Grid
  /-- `Dirty` (R30). -/
  dirty : Nat
  /-- `Run` (R31). -/
  run : Run
  /-- The model's own: key samples the host has presented for coming key queries, oldest first (log 3). -/
  keyInputs : List KeySample
  /-- The model's own: bytes the host has presented for coming `RND` executions, oldest first (log 2). -/
  rndInputs : List Byte
  /-- The model's own: how many free values have been drawn (log 2, log 3). -/
  draws : Nat
  deriving DecidableEq, Repr

/-- The machine after construction, which is also after construction and `reset()` (R33, R271; log 4). -/
def State.reset : State where
  mem := []
  v := Vector.replicate 16 0
  i := 0
  pc := pcReset
  sp := spReset
  rpl := Vector.replicate 16 0
  dt := 0
  st := 0
  mode := .normal
  fb := Grid.blank Mode.normal.width Mode.normal.height
  dirty := 0
  run := .running
  keyInputs := []
  rndInputs := []
  draws := 0

/-- The outcome of an instruction. -/
abbrev Result := Host.Outcome State Fault Refusal

end Sys2Proof.Machine
end

