-- ==== Sys2Proof/Machine/Ops.lean ====
section
/-!
DEFINITION. The named operations over registers, memory, display and inputs that the meanings share, and raising a fault
(spec 00_scope.md R9, 60_exceptions.md R236). There is no return from a fault (R238): only the transaction `reset` leaves
it (Sys2Proof/Machine/Transactions.lean).
-/

namespace Sys2Proof.Machine

/-! ## General registers and RPL (R21, R26) -/

/-- `V[r]`. -/
def State.getV (s : State) (r : RegIx) : Byte := s.v[r.toNat]

/-- `V[r] <- b`. -/
def State.setV (s : State) (r : RegIx) (b : Byte) : State := { s with v := s.v.set r.toNat b }

/-- `RPL[k]`. -/
def State.getRpl (s : State) (k : RegIx) : Byte := s.rpl[k.toNat]

/-- `RPL[k] <- b`. -/
def State.setRpl (s : State) (k : RegIx) (b : Byte) : State := { s with rpl := s.rpl.set k.toNat b }

/-! ## The other registers -/

/-- `I <- a` (R23, R65: not masked when written). -/
def State.setI (s : State) (a : Word) : State := { s with i := a }

/-- `PC <- a` (R24). -/
def State.setPc (s : State) (a : Word) : State := { s with pc := a }

/-- `SP <- b` (R25). -/
def State.setSp (s : State) (b : Byte) : State := { s with sp := b }

/-- `DT <- b` (R27). -/
def State.setDt (s : State) (b : Byte) : State := { s with dt := b }

/-- `ST <- b` (R27). -/
def State.setSt (s : State) (b : Byte) : State := { s with st := b }

/-- `Run <- r` (R31). -/
def State.setRun (s : State) (r : Run) : State := { s with run := r }

/-! ## Memory (R50 to R56) -/

/-- `MemRead(a, 1)`: the byte at the address masked to 12 bits (R50). -/
def State.memRead (s : State) (a : Word) : Byte := s.mem.read (busAddr a)

/-- `MemWrite(a, 1, b)` (R51). -/
def State.memWrite (s : State) (a : Word) (b : Byte) : State := { s with mem := s.mem.write (busAddr a) b }

/-- The word `step` fetches: two bytes at `PC`, each address masked on its own, first byte high (R52). -/
def State.fetchWord (s : State) : Word := wordOfBytes (s.memRead s.pc) (s.memRead (s.pc + 1))

/-! ## Program counter (R86, R88, R120) -/

/-- The unconditional advance of the fetch: `pc <- PC + 2` (R86). -/
def State.advancePc (s : State) : State := s.setPc (s.pc + instrBytes)

/-- `skip` when `c` holds: `pc <- PC + 2` once more (R120). -/
def State.skipIf (c : Bool) (s : State) : State := s.setPc (if c then s.pc + instrBytes else s.pc)

/-! ## Display (R171 to R175) -/

/-- A new grid and one more update: the common end of every display operation (R30). -/
def State.redraw (s : State) (g : Grid) : State := { s with fb := g, dirty := s.dirty + 1 }

/-- `fb_clear()` (R171). -/
def State.fbClear (s : State) : State := s.redraw (Grid.blank s.mode.width s.mode.height)

/-- `fb_set_mode(m)` (R172). -/
def State.fbSetMode (m : Mode) (s : State) : State := ({ s with mode := m }).fbClear

/-- `fb_scroll_down(n)` (R173). -/
def State.fbScrollDown (n : Nat) (s : State) : State := s.redraw (s.fb.scrolledDown s.mode.width n)

/-- `fb_scroll_left()` (R174). -/
def State.fbScrollLeft (s : State) : State := s.redraw s.fb.scrolledLeft

/-- `fb_scroll_right()` (R175). -/
def State.fbScrollRight (s : State) : State := s.redraw s.fb.scrolledRight

/-! ## Inputs (R7, R249, R250) -/

/-- The byte `RAND` supplies to this `RND`: the oldest one the host presented, else a free value (log 2). -/
def State.randomByte (s : State) : Byte :=
  match s.rndInputs with
  | b :: _ => b
  | [] => Config.freeRandom s.draws

/-- The state after that byte is taken. -/
def State.takeRandom (s : State) : State :=
  match s.rndInputs with
  | _ :: rest => { s with rndInputs := rest }
  | [] => { s with draws := s.draws + 1 }

/-- `keys(k)` of this query: the oldest sample the host presented, else a free one (log 3). -/
def State.keyPressed (s : State) (k : KeyId) : Bool :=
  match s.keyInputs with
  | sample :: _ => sample[k.toNat]
  | [] => (Config.freeKeys s.draws)[k.toNat]

/-- The state after that sample is taken. -/
def State.takeKeys (s : State) : State :=
  match s.keyInputs with
  | _ :: rest => { s with keyInputs := rest }
  | [] => { s with draws := s.draws + 1 }

/-! ## Faults and steps that execute nothing -/

/-- Fault entry: `Run <- Faulted(cause, info)` and nothing else (R236, D20). -/
def State.raise (f : Fault) (s : State) : State := s.setRun (.faulted f)

/-- `step` on an illegal word, `PC` already advanced (R231). -/
def illegalWord (w : Word) (s : State) : Result := .next (s.raise (.unknownOpcode w))

/-- `step` outside `Running`: fetches nothing and changes nothing (R238, R242, R243, D19). -/
def idleStep (s : State) : Result := .next s

/-- `s` with the word of the two bytes stored where the next fetch reads it, and the block running, so that it is fetched. -/
def State.placeWord (s : State) (bytes : Byte × Byte) : State :=
  ((s.memWrite s.pc bytes.1).memWrite (s.pc + 1) bytes.2).setRun .running

end Sys2Proof.Machine
end

