-- ==== Sys2Proof/Machine/Operands.lean ====
section
/-!
DEFINITION. The operand forms: immediates, all zero-extended (spec 30_encoding.md R73), register ranges, memory operands
relative to `I` and the stack (20_memory.md R53, R54), glyph addresses (45_misc.md R205, R206) and sprites (43_draw.md
R176).
-/

namespace Sys2Proof.Machine

/-! ## Immediates -/

/-- `nnn` as a 16-bit address (R73). -/
def addrOperand (nnn : Addr) : Word := nnn.setWidth 16

/-- A byte as a 16-bit number (R9, `zext_16`). -/
def zextByte (b : Byte) : Word := b.setWidth 16

/-! ## Register ranges `V0..Vx` (R208 to R211) -/

/-- The register numbers `0 .. x`, in the order of the loops. -/
def regsUpTo (x : RegIx) : List RegIx := (List.range (x.toNat + 1)).map (BitVec.ofNat 4)

/-! ## Memory operands -/

/-- The address `I + k`, before the mask (R54). -/
def State.indexed (s : State) (k : Nat) : Word := s.i + BitVec.ofNat 16 k

/-- The address of the stack byte at `SP + k`, before the mask (R53). -/
def State.stackAddr (s : State) (k : Nat) : Word := zextByte s.sp + BitVec.ofNat 16 k

/-- The low and the high byte of a return address (R53). -/
def lowByte (w : Word) : Byte := w.extractLsb' 0 8

/-- See `lowByte`. -/
def highByte (w : Word) : Byte := w.extractLsb' 8 8

/-- The digits that `BCD` stores, hundreds first (R207). -/
def bcdDigits (b : Byte) : Byte × Byte × Byte :=
  (BitVec.ofNat 8 (b.toNat / 100), BitVec.ofNat 8 (b.toNat / 10 % 10), BitVec.ofNat 8 (b.toNat % 10))

/-! ## Glyph addresses -/

/-- `glyph_index * size`, all 8 bits of the index (R205, R206, D14). -/
def glyphAddr (size : Nat) (index : Byte) : Word := BitVec.ofNat 16 (index.toNat * size)

/-! ## Keys -/

/-- The key a key instruction names: `V[x]` when it is at most 15 (R190). -/
def keyOperand (b : Byte) : Option KeyId := if b.toNat > maxKey then none else some (b.setWidth 4)

/-! ## Sprites (R176) -/

/-- `DRW` takes the 16x16 form: Extended mode and `n = 0` (R178). -/
def State.wideSprite (s : State) (n : Nibble) : Bool := s.mode == .extended && n == 0

/-- Columns of the sprite (R178). -/
def spriteWidth (wide : Bool) : Nat := if wide then 16 else 8

/-- Rows of the sprite (R178; `n = 0` in Normal mode: none, D10, C8). -/
def spriteRows (wide : Bool) (n : Nibble) : Nat := if wide then 16 else n.toNat

/-- Row `r` of the sprite at `I`: one byte, or two bytes with the left half first (R54, R176, D9). -/
def State.spriteRow (s : State) (wide : Bool) (r : Nat) : Word :=
  if wide then s.memRead (s.indexed (2 * r)) ++ s.memRead (s.indexed (2 * r + 1))
  else zextByte (s.memRead (s.indexed r))

/-- The sprite's pixel in row `r`, column `c`: the most significant bit is the leftmost (R176, D9). -/
def State.spriteBit (s : State) (wide : Bool) (r c : Nat) : Bool :=
  (s.spriteRow wide r).getLsbD (spriteWidth wide - 1 - c)

end Sys2Proof.Machine
end

