-- ==== Sys2Proof/Machine/Flags.lean ====
section
/-!
DEFINITION. Every flag computation (spec 10_state.md R22, 42_alu.md R142, R147 to R151). The collision flag of `DRW` is
computed with the pixels, by `composite` (43_draw.md R177).
-/

namespace Sys2Proof.Machine

/-- A flag as the byte that `V[0xF]` holds. -/
def flagByte (c : Bool) : Byte := if c then 1 else 0

/-- `ADD Vx, Vy`: carry (R147). -/
def carryFlag (a b : Byte) : Bool := a.toNat + b.toNat > 255

/-- `SUB` (operands in order) and `SUBN` (operands swapped): no borrow, a strict comparison (R148, R150). -/
def noBorrowFlag (a b : Byte) : Bool := a.toNat > b.toNat

/-- `SHR`: the bit shifted out (R149). -/
def shiftRightFlag (a : Byte) : Bool := a.getLsbD 0

/-- `SHL`: the bit shifted out (R151, C7). -/
def shiftLeftFlag (a : Byte) : Bool := a.getLsbD 7

/-- The result to `V[x]`, then the flag to `V[0xF]`, which wins when `x = 0xF` (R22, R142). -/
def State.writeWithFlag (s : State) (x : RegIx) (result : Byte) (c : Bool) : State :=
  (s.setV x result).setV flagReg (flagByte c)

end Sys2Proof.Machine
end

