-- ==== Sys2Proof/Machine/Alu.lean ====
section
/-!
DEFINITION. Register and ALU instructions (spec 42_alu.md R140 to R154). Operands are read before anything is written
(R142, D11).
-/

namespace Sys2Proof.Machine

/-- `LD Vx, kk` (R140). -/
def execLdImm (x : RegIx) (kk : Byte) (s : State) : Result := .next (s.setV x kk)

/-- `ADD Vx, kk`: no flag (R141). -/
def execAddImm (x : RegIx) (kk : Byte) (s : State) : Result := .next (s.setV x (s.getV x + kk))

/-- `LD Vx, Vy` (R143). -/
def execLdReg (x y : RegIx) (s : State) : Result := .next (s.setV x (s.getV y))

/-- `OR Vx, Vy` (R144). -/
def execOrReg (x y : RegIx) (s : State) : Result := .next (s.setV x (s.getV x ||| s.getV y))

/-- `AND Vx, Vy` (R145). -/
def execAndReg (x y : RegIx) (s : State) : Result := .next (s.setV x (s.getV x &&& s.getV y))

/-- `XOR Vx, Vy` (R146). -/
def execXorReg (x y : RegIx) (s : State) : Result := .next (s.setV x (s.getV x ^^^ s.getV y))

/-- `ADD Vx, Vy` (R147). -/
def execAddReg (x y : RegIx) (s : State) : Result :=
  .next (s.writeWithFlag x (s.getV x + s.getV y) (carryFlag (s.getV x) (s.getV y)))

/-- `SUB Vx, Vy` (R148; equal operands give 0 and flag 0, C4, D12). -/
def execSubReg (x y : RegIx) (s : State) : Result :=
  .next (s.writeWithFlag x (s.getV x - s.getV y) (noBorrowFlag (s.getV x) (s.getV y)))

/-- `SHR Vx`: `Vy` is not read (R149). -/
def execShr (x : RegIx) (s : State) : Result :=
  .next (s.writeWithFlag x (s.getV x >>> 1) (shiftRightFlag (s.getV x)))

/-- `SUBN Vx, Vy` (R150; equal operands give 0 and flag 0, C4, D12). -/
def execSubnReg (x y : RegIx) (s : State) : Result :=
  .next (s.writeWithFlag x (s.getV y - s.getV x) (noBorrowFlag (s.getV y) (s.getV x)))

/-- `SHL Vx`: `Vy` is not read (R151). -/
def execShl (x : RegIx) (s : State) : Result :=
  .next (s.writeWithFlag x (s.getV x <<< 1) (shiftLeftFlag (s.getV x)))

/-- `LD I, nnn` (R152). -/
def execLdI (nnn : Addr) (s : State) : Result := .next (s.setI (addrOperand nnn))

/-- `RND Vx, kk` (R153). -/
def execRnd (x : RegIx) (kk : Byte) (s : State) : Result :=
  .next (s.takeRandom.setV x (s.randomByte &&& kk))

end Sys2Proof.Machine
end

