-- ==== Sys2Proof/Machine/Draw.lean ====
section
/-!
DEFINITION. `DRW` (spec 43_draw.md R176 to R178).
-/

namespace Sys2Proof.Machine

/-- The grid and the collision after the sprite at `I` is composited at `(V[x], V[y])`, both coordinates wrapping per
pixel at the active grid's size (R178). -/
def State.drawn (s : State) (x y : RegIx) (n : Nibble) : Grid × Bool :=
  let wide := s.wideSprite n
  compositeSprite s.mode.width s.mode.height (spriteWidth wide) (spriteRows wide n)
    (s.getV x).toNat (s.getV y).toNat (s.spriteBit wide) (s.fb, false)

/-- `DRW Vx, Vy, n` (R178): the coordinates are read before the flag is written. -/
def execDrw (x y : RegIx) (n : Nibble) (s : State) : Result :=
  .next ((s.redraw (s.drawn x y n).1).setV flagReg (flagByte (s.drawn x y n).2))

end Sys2Proof.Machine
end

