-- ==== Sys2Proof/Machine/Flow.lean ====
section
/-!
DEFINITION. Control transfer (spec 41_flow.md R120 to R127). Every meaning runs with `PC` already advanced (R86, R88).
-/

namespace Sys2Proof.Machine

/-- `JP nnn` (R121). -/
def execJp (nnn : Addr) (s : State) : Result := .next (s.setPc (addrOperand nnn))

/-- `CALL nnn` (R122): low byte of the return address first. -/
def execCall (nnn : Addr) (s : State) : Result :=
  .next <|
    if s.sp.toNat > stackMaxSp then s.raise (.stackOverflow s.sp)
    else
      let s1 := s.memWrite (s.stackAddr 0) (lowByte s.pc)
      let s2 := s1.memWrite (s1.stackAddr 1) (highByte s1.pc)
      (s2.setSp (s2.sp + 2)).setPc (addrOperand nnn)

/-- `SE Vx, kk` (R123). -/
def execSeImm (x : RegIx) (kk : Byte) (s : State) : Result := .next (s.skipIf (s.getV x == kk))

/-- `SNE Vx, kk` (R124). -/
def execSneImm (x : RegIx) (kk : Byte) (s : State) : Result := .next (s.skipIf (s.getV x != kk))

/-- `SE Vx, Vy` (R125). -/
def execSeReg (x y : RegIx) (s : State) : Result := .next (s.skipIf (s.getV x == s.getV y))

/-- `SNE Vx, Vy` (R126). -/
def execSneReg (x y : RegIx) (s : State) : Result := .next (s.skipIf (s.getV x != s.getV y))

/-- `JP I, nnn` (R127): the base is `I`, the sum is taken modulo 2^16 (D2). -/
def execJpI (nnn : Addr) (s : State) : Result := .next (s.setPc (s.i + addrOperand nnn))

end Sys2Proof.Machine
end

