-- ==== Sys2Proof/Machine/Keys.lean ====
section
/-!
DEFINITION. The key family (spec 44_keys.md R190 to R192).
-/

namespace Sys2Proof.Machine

/-- The skip of a key instruction on the key that `b` names, skipping when the key's state is `want`; a byte above 15
names no key, raises the fault and queries nothing (R190, D15). -/
def State.keySkip (want : Bool) (b : Byte) (s : State) : State :=
  match keyOperand b with
  | none => s.raise (.unknownKey b)
  | some k => s.takeKeys.skipIf (s.keyPressed k == want)

/-- `SKPR Vx` (R191). -/
def execSkpr (x : RegIx) (s : State) : Result := .next (s.keySkip true (s.getV x))

/-- `SKUP Vx` (R192). -/
def execSkup (x : RegIx) (s : State) : Result := .next (s.keySkip false (s.getV x))

end Sys2Proof.Machine
end

