-- ==== Sys2Proof/Machine/Misc.lean ====
section
/-!
DEFINITION. The 0xF family (spec 45_misc.md R200 to R211).
-/

namespace Sys2Proof.Machine

/-- `LD Vx, DT` (R200). -/
def execLdFromDt (x : RegIx) (s : State) : Result := .next (s.setV x s.dt)

/-- `LD Vx, K`: waits; the wait ends by a host transaction (R201, R244, R245). -/
def execLdKey (x : RegIx) (s : State) : Result := .next (s.setRun (.awaitingKey x))

/-- `LD DT, Vx` (R202). -/
def execLdDt (x : RegIx) (s : State) : Result := .next (s.setDt (s.getV x))

/-- `LD ST, Vx` (R203). -/
def execLdSt (x : RegIx) (s : State) : Result := .next (s.setSt (s.getV x))

/-- `ADD I, Vx`: no flag, modulo 2^16 (R204, D3). -/
def execAddI (x : RegIx) (s : State) : Result := .next (s.setI (s.i + zextByte (s.getV x)))

/-- `LD F, Vx` (R205). -/
def execLdF (x : RegIx) (s : State) : Result := .next (s.setI (glyphAddr glyphNormal (s.getV x)))

/-- `LD HF, Vx` (R206). -/
def execLdHf (x : RegIx) (s : State) : Result := .next (s.setI (glyphAddr glyphExt (s.getV x)))

/-- `BCD Vx` (R207). -/
def execBcd (x : RegIx) (s : State) : Result :=
  let d := bcdDigits (s.getV x)
  .next (((s.memWrite (s.indexed 0) d.1).memWrite (s.indexed 1) d.2.1).memWrite (s.indexed 2) d.2.2)

/-- `LD [I], Vx` (R208): `I` stays (D13). -/
def execStoreRegs (x : RegIx) (s : State) : Result :=
  .next ((regsUpTo x).foldl (fun t k => t.memWrite (t.indexed k.toNat) (t.getV k)) s)

/-- `LD Vx, [I]` (R209): `I` stays (D13). -/
def execLoadRegs (x : RegIx) (s : State) : Result :=
  .next ((regsUpTo x).foldl (fun t k => t.setV k (t.memRead (t.indexed k.toNat))) s)

/-- `LD R, Vx` (R210). -/
def execStoreRpl (x : RegIx) (s : State) : Result :=
  .next ((regsUpTo x).foldl (fun t k => t.setRpl k (t.getV k)) s)

/-- `LD Vx, R` (R211). -/
def execLoadRpl (x : RegIx) (s : State) : Result :=
  .next ((regsUpTo x).foldl (fun t k => t.setV k (t.getRpl k)) s)

end Sys2Proof.Machine
end

