-- ==== Sys2Proof/Machine/System.lean ====
section
/-!
DEFINITION. The 0x0 family (spec 40_system.md R100 to R108). Every meaning runs with `PC` already advanced (R86, R88).
-/

namespace Sys2Proof.Machine

/-- `SYS nnn`: a no-op (R100, C6). -/
def execSys (_nnn : Addr) (s : State) : Result := .next s

/-- `CLS` (R101). -/
def execCls (s : State) : Result := .next s.fbClear

/-- `RETURN` (R102): high byte at `SP - 1`, low byte at `SP - 2`. -/
def execRet (s : State) : Result :=
  .next <|
    if s.sp.toNat < stackMinSp then s.raise (.stackUnderflow s.sp)
    else
      let s1 := s.setSp (s.sp - 1)
      let hi := s1.memRead (s1.stackAddr 0)
      let s2 := s1.setSp (s1.sp - 1)
      let lo := s2.memRead (s2.stackAddr 0)
      s2.setPc (hi ++ lo)

/-- `SCD n` (R103). -/
def execScd (n : Nibble) (s : State) : Result := .next (s.fbScrollDown n.toNat)

/-- `SCR` (R104). -/
def execScr (s : State) : Result := .next s.fbScrollRight

/-- `SCL` (R105). -/
def execScl (s : State) : Result := .next s.fbScrollLeft

/-- `EXIT` (R106). -/
def execExit (s : State) : Result := .next (s.setRun .halted)

/-- `LOW` (R107). -/
def execLow (s : State) : Result := .next (s.fbSetMode .normal)

/-- `HIGH` (R108). -/
def execHigh (s : State) : Result := .next (s.fbSetMode .extended)

end Sys2Proof.Machine
end

