-- ==== Sys2Proof/Machine/Step.lean ====
section
/-!
DEFINITION. The instruction cycle (spec 30_encoding.md R86): fetch, advance `PC`, decode, execute; and where the next
instruction is fetched from.
-/

namespace Sys2Proof.Machine

/-- The execute phase of the word `w`, with `PC` already advanced: its instruction, or the fault of an illegal word
(R86). -/
def execWord (w : Word) (s : State) : Host.Outcome State Fault Refusal :=
  match decodeWord w with
  | .ok i => exec i s
  | .error _ => illegalWord w s

/-- `step()` (R86; outside `Running` R238, R242, R243). -/
def step (s : State) : Host.Outcome State Fault Refusal :=
  match s.run with
  | .running => execWord s.fetchWord s.advancePc
  | .awaitingKey _ => idleStep s
  | .halted => idleStep s
  | .faulted _ => idleStep s

/-- `s` with an opcode-table word stored at `PC`, high byte first, and the block running, so that the next `step`
fetches exactly it (log 5). -/
def State.withFetchWord (s : State) (nbits w : Nat) : State := s.placeWord (tableBytes nbits w)

end Sys2Proof.Machine
end

