-- ==== Sys2Proof/Machine/Transactions.lean ====
section
/-!
DEFINITION. The block's interface at transaction level (spec 60_exceptions.md R241 to R252, 20_memory.md R64,
70_reset_and_hazards.md R270, R271, 43_draw.md R180): what each host call does and returns, and runs of any schedule of
calls (`SCHED`, R7).
-/

namespace Sys2Proof.Machine

/-! ## What `step` returns (R86, R241) -/

/-- The signal of a `step` that raises no fault (R241). -/
inductive Signal where
  | continue_
  | awaitingKey (r : RegIx)
  | halted
  deriving DecidableEq, Repr

/-- The word a `step` in this state executes: none outside `Running` (R86, R242, R243). -/
def State.executedWord (s : State) : Option Word := if s.run = .running then some s.fetchWord else none

/-- What a `step` that went from `s` to `t` returns: the executed word and a signal, or the fault (R236, R238, R241). -/
def stepReturnOf (s t : State) : Host.Outcome (Option Word × Signal) Fault Refusal :=
  match t.run with
  | .running => .next (s.executedWord, .continue_)
  | .awaitingKey r => .next (s.executedWord, .awaitingKey r)
  | .halted => .next (s.executedWord, .halted)
  | .faulted f => .fault f

/-- What `step()` returns to its caller. -/
def stepReturn (s : State) : Host.Outcome (Option Word × Signal) Fault Refusal :=
  match step s with
  | .next t => stepReturnOf s t
  | .fault f => .fault f
  | .refused r => .refused r

/-- The numeric code of a fault (R230, D21). -/
def Fault.code : Fault → Nat
  | .unknownOpcode _ => 1
  | .stackOverflow _ => 2
  | .stackUnderflow _ => 3
  | .outOfBounds _ _ => 4
  | .unknownKey _ => 5

/-! ## The other transactions -/

/-- One tick of a timer that saturates at 0 (R247). -/
def tickDown (b : Byte) : Byte := if b.toNat > 0 then b - 1 else b

/-- `tick_timers()` (R247; in every run state, D25). -/
def State.tickTimers (s : State) : State := { s with dt := tickDown s.dt, st := tickDown s.st }

/-- The bound that `load` checks before it copies anything: the bytes end inside memory (R64, D22). -/
def loadFits (bytes : List Byte) (offset : Word) : Bool := offset.toNat + bytes.length ≤ memSize

/-- Fault entry of a host transaction: that of R236, but a `Halted` block stays `Halted`, which only `reset` leaves (R242,
R255, D23; log 10). -/
def State.raiseToHost (f : Fault) (s : State) : State :=
  match s.run with
  | .halted => s
  | .running => s.raise f
  | .awaitingKey _ => s.raise f
  | .faulted _ => s.raise f

/-- `load(bytes, offset)` (R64): legal in every run state (D36). -/
def State.load (bytes : List Byte) (offset : Word) (s : State) : State :=
  if loadFits bytes offset then { s with mem := s.mem.copyIn offset.toNat bytes }
  else s.raiseToHost (.outOfBounds offset bytes.length)

/-- `reset()` (R270): `Mem`, `Mode`, `FB` and `Dirty` stay, and so do the model's own inputs, which are not the block's. -/
def State.resetBlock (s : State) : State :=
  { s with v := Vector.replicate 16 0, rpl := Vector.replicate 16 0, pc := pcReset, sp := spReset, i := 0,
           dt := 0, st := 0, run := .running }

/-- `key_event(k)` (R244): outside a wait no effect (D17). -/
def State.keyEvent (k : KeyId) (s : State) : State :=
  match s.run with
  | .awaitingKey r => (s.setV r (k.setWidth 8)).setRun .running
  | .running | .halted | .faulted _ => s

/-- `quit()` (R245): outside a wait no effect (D18). -/
def State.quit (s : State) : State :=
  match s.run with
  | .awaitingKey _ => s.setRun .halted
  | .running | .halted | .faulted _ => s

/-- A host call that can change state, with its inputs (R251). `step` takes the key state and the random byte of that
step. -/
inductive Transaction where
  | step (keys : KeySample) (rnd : Byte)
  | tickTimers
  | load (bytes : List Byte) (offset : Word)
  | reset
  | keyEvent (k : KeyId)
  | quit
  deriving DecidableEq, Repr

/-- The inputs of one step, presented (log 2, log 3). -/
def State.present (keys : KeySample) (rnd : Byte) (s : State) : State :=
  { s with keyInputs := [keys], rndInputs := [rnd] }

/-- What one step left untaken of its inputs is gone: the next step has inputs of its own. -/
def State.dropInputs (s : State) : State := { s with keyInputs := [], rndInputs := [] }

/-- `step()` with the inputs of R251's table. -/
def stepWith (keys : KeySample) (rnd : Byte) (s : State) : Host.Outcome State Fault Refusal :=
  match step (s.present keys rnd) with
  | .next t => .next t.dropInputs
  | .fault f => .fault f
  | .refused r => .refused r

/-- One transaction (R251, R252: atomic). -/
def transact (c : Transaction) (s : State) : Host.Outcome State Fault Refusal :=
  match c with
  | .step keys rnd => stepWith keys rnd s
  | .tickTimers => .next s.tickTimers
  | .load bytes offset => .next (s.load bytes offset)
  | .reset => .next s.resetBlock
  | .keyEvent k => .next (s.keyEvent k)
  | .quit => .next s.quit

/-! ## What a transaction returns (R236, R251) -/

/-- What a transaction that raises no fault returns: nothing, or for `step` the executed word and the signal (R251). -/
inductive Answer where
  | nothing
  | executed (word : Option Word) (signal : Signal)
  deriving DecidableEq, Repr

/-- What `load` returns: nothing, or the fault it raises, whatever the run state was before (R64, R236, R251). -/
def loadReturn (bytes : List Byte) (offset : Word) : Host.Outcome Answer Fault Refusal :=
  if loadFits bytes offset then .next .nothing else .fault (.outOfBounds offset bytes.length)

/-- What `step()` with its inputs returns (R251). -/
def stepAnswer (keys : KeySample) (rnd : Byte) (s : State) : Host.Outcome Answer Fault Refusal :=
  match stepReturn (s.present keys rnd) with
  | .next (word, signal) => .next (.executed word signal)
  | .fault f => .fault f
  | .refused r => .refused r

/-- What one transaction hands its caller, in the state it is called in: the outputs of R251's table, or the fault it
raised (R236). The state it leaves is `transact`. -/
def transactReturn (c : Transaction) (s : State) : Host.Outcome Answer Fault Refusal :=
  match c with
  | .step keys rnd => stepAnswer keys rnd s
  | .load bytes offset => loadReturn bytes offset
  | .tickTimers => .next .nothing
  | .reset => .next .nothing
  | .keyEvent _ => .next .nothing
  | .quit => .next .nothing

/-! ## Schedules -/

/-- A schedule of transactions, in order (R252). -/
def runSchedule : List Transaction → State → Host.Outcome State Fault Refusal
  | [], s => .next s
  | c :: cs, s =>
    match transact c s with
    | .next t => runSchedule cs t
    | .fault f => .fault f
    | .refused r => .refused r

/-! ## Construction (R271) -/

/-- `construct`: the state the block is created in; it takes nothing from before. -/
def construct : State := State.reset

/-! ## Display reads (R180) -/

/-- `dimensions()`. -/
def State.dimensions (s : State) : Nat × Nat := (s.mode.width, s.mode.height)

/-- `get_pixel(x, y)`; outside the grid the read is not defined and the model refuses it (R180, D28). -/
def State.getPixel (s : State) (x y : Nat) : Host.Outcome Bool Fault Refusal :=
  if x < s.mode.width ∧ y < s.mode.height then .next (s.fb.pixel x y) else .refused .pixelOutsideGrid

/-- `Dirty`, as the host reads it. -/
def State.dirtyCount (s : State) : Nat := s.dirty

end Sys2Proof.Machine
end

