-- ==== Sys2Proof/Safety.lean ====
section
/-!
DEFINITION. The words claims use: the invariant of R34, the end of a run (R280), reachable states, and what it means
that an instruction leaves a part of the state alone.
-/

namespace Sys2Proof.Machine

/-! ## Invariant -/

/-- What R34 says beyond the widths (which are the types): memory in its canonical form, the grid of the mode's size, an
even `SP`. -/
abbrev State.Inv (s : State) : Prop :=
  s.mem.wf ∧ s.fb.shaped s.mode.width s.mode.height ∧ s.sp.toNat % 2 = 0

/-- The states that some schedule of transactions leads to from construction (R252, R271). -/
inductive Reachable : State → Prop where
  | constructed : Reachable construct
  | next {s t : State} (c : Transaction) : Reachable s → transact c s = .next t → Reachable t

/-! ## The end of a run -/

/-- The run is over (R280). -/
def State.ended (s : State) : Bool :=
  match s.run with
  | .halted | .faulted _ => true
  | .running | .awaitingKey _ => false

/-- The normal end (R280). -/
def State.endedWell (s : State) : Bool := s.run = .halted

/-! ## What an instruction leaves alone -/

/-- Every byte of memory reads as before. -/
def KeepsMemory (s t : State) : Prop := ∀ a : Word, t.memRead a = s.memRead a

/-- Every byte of memory reads as before, except at the bus addresses of the addresses listed. -/
def KeepsMemoryBut (stored : List Word) (s t : State) : Prop :=
  ∀ a : Word, (∀ b ∈ stored, busAddr a ≠ busAddr b) → t.memRead a = s.memRead a

/-- Every general register but those listed holds what it held. -/
def KeepsRegsBut (rs : List RegIx) (s t : State) : Prop := ∀ r : RegIx, r ∉ rs → t.getV r = s.getV r

/-- Only the general registers listed may have changed: every other register, every byte of memory and every other field
is as it was. -/
def OnlyRegs (rs : List RegIx) (s t : State) : Prop :=
  KeepsRegsBut rs s t ∧ KeepsMemory s t ∧ t = { s with v := t.v }

/-- Only `PC` may have changed. -/
def OnlyPc (s t : State) : Prop := KeepsMemory s t ∧ t = { s with pc := t.pc }

/-- Only `I` may have changed. -/
def OnlyIndex (s t : State) : Prop := KeepsMemory s t ∧ t = { s with i := t.i }

/-- Only mode, grid and update counter may have changed. -/
def OnlyDisplay (s t : State) : Prop :=
  KeepsMemory s t ∧ t = { s with mode := t.mode, fb := t.fb, dirty := t.dirty }

/-- Only the memory bytes at the addresses listed may have changed. -/
def OnlyMemoryAt (stored : List Word) (s t : State) : Prop :=
  KeepsMemoryBut stored s t ∧ t = { s with mem := t.mem }

/-! ## What a sprite covers, in the numbers of the spec -/

/-- Row `r` of the sprite at `I` as the number of R176: one byte, or two bytes with the lower address high. -/
def State.rowNumber (s : State) (wide : Bool) (r : Nat) : Nat :=
  if wide then 256 * (s.memRead (s.i + BitVec.ofNat 16 (2 * r))).toNat +
    (s.memRead (s.i + BitVec.ofNat 16 (2 * r + 1))).toNat
  else (s.memRead (s.i + BitVec.ofNat 16 r)).toNat

/-- The sprite of `DRW Vx, Vy, n` (R178) has a lit pixel that falls on column `u`, row `v` of the grid. -/
def State.spriteLights (s : State) (x y : RegIx) (n : Nibble) (u v : Nat) : Prop :=
  let wide : Bool := decide (s.mode = .extended ∧ n = 0)
  let wd := if wide then 16 else 8
  let rows := if wide then 16 else n.toNat
  ∃ r c, r < rows ∧ c < wd ∧ ((s.getV x).toNat + c) % s.mode.width = u ∧ ((s.getV y).toNat + r) % s.mode.height = v ∧
    s.rowNumber wide r / 2 ^ (wd - 1 - c) % 2 = 1

end Sys2Proof.Machine

namespace Sys2Proof

/-! ## Who writes what, read off the instruction rules -/

/-- Executing the instruction may write `V[r]`: as its named destination, or `V[0xF]` as its flag (R21, R22). `LD Vx, K`
writes none when it executes; the key event does (R201, R244). -/
def Instr.writesV (r : RegIx) : Instr → Bool
  | .ldImm x _ | .addImm x _ | .rnd x _ | .ldFromDt x => r == x
  | .ldReg x _ | .orReg x _ | .andReg x _ | .xorReg x _ => r == x
  | .addReg x _ | .subReg x _ | .subnReg x _ | .shr x | .shl x => r == x || r == flagReg
  | .drw _ _ _ => r == flagReg
  | .loadRegs x | .loadRpl x => r.toNat ≤ x.toNat
  | .cls | .ret | .scd _ | .scr | .scl | .exit | .low | .high | .sys _ => false
  | .jp _ | .call _ | .seImm _ _ | .sneImm _ _ | .seReg _ _ | .sneReg _ _ | .ldI _ | .jpI _ => false
  | .skpr _ | .skup _ | .ldKey _ | .ldDt _ | .ldSt _ | .addI _ | .ldF _ | .ldHf _ => false
  | .bcd _ | .storeRegs _ | .storeRpl _ => false

/-- The instruction writes memory (R56). -/
def Instr.writesMemory : Instr → Bool
  | .call _ | .bcd _ | .storeRegs _ => true
  | .cls | .ret | .scd _ | .scr | .scl | .exit | .low | .high | .sys _ => false
  | .jp _ | .seImm _ _ | .sneImm _ _ | .seReg _ _ | .sneReg _ _ | .ldI _ | .jpI _ => false
  | .ldImm _ _ | .addImm _ _ | .rnd _ _ | .ldFromDt _ | .ldReg _ _ | .orReg _ _ | .andReg _ _ | .xorReg _ _ => false
  | .addReg _ _ | .subReg _ _ | .subnReg _ _ | .shr _ | .shl _ | .drw _ _ _ => false
  | .skpr _ | .skup _ | .ldKey _ | .ldDt _ | .ldSt _ | .addI _ | .ldF _ | .ldHf _ => false
  | .loadRegs _ | .storeRpl _ | .loadRpl _ => false

/-- The instruction draws, scrolls, clears or switches the mode: the seven that `Dirty` counts (R30). -/
def Instr.updatesDisplay : Instr → Bool
  | .cls | .scd _ | .scr | .scl | .low | .high | .drw _ _ _ => true
  | .ret | .exit | .sys _ | .jp _ | .call _ | .seImm _ _ | .sneImm _ _ | .seReg _ _ | .sneReg _ _ => false
  | .ldI _ | .jpI _ | .ldImm _ _ | .addImm _ _ | .rnd _ _ | .ldFromDt _ | .ldReg _ _ | .orReg _ _ => false
  | .andReg _ _ | .xorReg _ _ | .addReg _ _ | .subReg _ _ | .subnReg _ _ | .shr _ | .shl _ => false
  | .skpr _ | .skup _ | .ldKey _ | .ldDt _ | .ldSt _ | .addI _ | .ldF _ | .ldHf _ => false
  | .bcd _ | .storeRegs _ | .loadRegs _ | .storeRpl _ | .loadRpl _ => false

end Sys2Proof
end

