-- ==== Sys2Proof/Certificates/Slice0/Obligations.lean ====
section
/-!
DEFINITION. The statements for the provers, from the numbered rules of spec/. `exec` and the rules both speak of the state
after the fetch, `PC` already advanced by 2 (R86, R88); `s` is that state unless a statement speaks of `step`.
-/

section

open Sys2Proof Sys2Proof.Machine

/-! ## The instruction cycle and the run states -/

/-- R86 (the wrap of `PC` is D2), R231, R236: in `Running`, `step` fetches the big-endian word at `PC`, advances `PC`
by 2, and runs the decoded instruction, or raises `UnknownOpcode` on an illegal word (the faulted state and the
returned fault are D20; that the model answers a next state there is log 1); it returns the executed word beside the
signal, `Continue` while the block stays `Running`. -/
def Obligations.StepRunsTheDecodedInstruction : Prop :=
  ∀ s : State, s.run = .running →
    s.fetchWord.toNat = 256 * (s.memRead s.pc).toNat + (s.memRead (s.pc + 1)).toNat ∧
    (∀ i, decodeWord s.fetchWord = .ok i → step s = exec i { s with pc := s.pc + 2 }) ∧
    (∀ e, decodeWord s.fetchWord = .error e →
      step s = .next { s with pc := s.pc + 2, run := .faulted (.unknownOpcode s.fetchWord) } ∧
      stepReturn s = .fault (.unknownOpcode s.fetchWord)) ∧
    (∀ t, step s = .next t → (∀ f, t.run ≠ .faulted f) → ∃ g, stepReturn s = .next (some s.fetchWord, g)) ∧
    (∀ t, step s = .next t → t.run = .running → stepReturn s = .next (some s.fetchWord, .continue_))

/-- R238, R242, R243 with D19 (the spec's own decision that such a step is a no-op): outside `Running`, `step` fetches
nothing, changes nothing, and returns the same signal with no word, or the same fault. -/
def Obligations.StepIsIdleOutsideRunning : Prop :=
  ∀ s : State,
    (∀ r, s.run = .awaitingKey r → step s = .next s ∧ stepReturn s = .next (none, .awaitingKey r)) ∧
    (s.run = .halted → step s = .next s ∧ stepReturn s = .next (none, .halted)) ∧
    (∀ f, s.run = .faulted f → step s = .next s ∧ stepReturn s = .fault f)

/-- R241: what a step that raises no fault returns: the executed word with `AwaitingKey(x)` for `LD Vx, K`, `Halted` for
`EXIT`, and `Continue` for every other instruction. -/
def Obligations.SignalsOfEveryInstruction : Prop :=
  ∀ (s t : State) (i : Instr), s.run = .running → decodeWord s.fetchWord = .ok i → step s = .next t →
    (∀ f, t.run ≠ .faulted f) →
    (∀ x, i = .ldKey x → stepReturn s = .next (some s.fetchWord, .awaitingKey x)) ∧
    (i = .exit → stepReturn s = .next (some s.fetchWord, .halted)) ∧
    ((∀ x, i ≠ .ldKey x) → i ≠ .exit → stepReturn s = .next (some s.fetchWord, .continue_))

/-- No step and no transaction stops the model: every one answers a next state, a fault of the block being a state (R236;
log 1 says that this reading is the model's). -/
def Obligations.EveryTransactionAnswersNext : Prop :=
  (∀ s : State, ∃ t, step s = .next t) ∧ (∀ (c : Transaction) (s : State), ∃ t, transact c s = .next t)

/-- R231 to R236 and R239: the faults a step raises from `Running` are exactly these, each with the information
recorded, and each is returned to the caller (D20; the faulted block is a next state by log 1). The bounds 0xFD, 2 and
15 are the spec's own decisions D4 and D15. -/
def Obligations.StepRaisesExactlyTheListedFaults : Prop :=
  ∀ (s : State) (f : Fault), s.run = .running →
    (stepReturn s = .fault f ↔ ∃ t, step s = .next t ∧ t.run = .faulted f) ∧
    ((∃ t, step s = .next t ∧ t.run = .faulted f) ↔
      ((∃ e, decodeWord s.fetchWord = .error e) ∧ f = .unknownOpcode s.fetchWord) ∨
      (∃ nnn, decodeWord s.fetchWord = .ok (.call nnn) ∧ 0xFD < s.sp.toNat ∧ f = .stackOverflow s.sp) ∨
      (decodeWord s.fetchWord = .ok .ret ∧ s.sp.toNat < 2 ∧ f = .stackUnderflow s.sp) ∨
      (∃ x, (decodeWord s.fetchWord = .ok (.skpr x) ∨ decodeWord s.fetchWord = .ok (.skup x)) ∧
        15 < (s.getV x).toNat ∧ f = .unknownKey (s.getV x)))

/-- R237 (which the spec marks as derived): faults are precise. A faulted step leaves the state it started from with
only `PC` advanced and `Run` changed; a faulted `load` leaves the state before it with only `Run` changed, and in a
`Halted` block not even that. The faulted block is a next state by log 1 (R236's entry is D20, nothing copied by a
failing `load` is D22). That `Halted` stays, by R242 and R255 (D23) against R64 and R236, is the model's reading in log
10. -/
def Obligations.FaultsArePrecise : Prop :=
  (∀ (s t : State) (f : Fault), s.run = .running → step s = .next t → t.run = .faulted f →
    t = { s with pc := s.pc + 2, run := .faulted f }) ∧
  (∀ (s t : State) (bytes : List Byte) (offset : Word) (f : Fault), transact (.load bytes offset) s = .next t →
    transactReturn (.load bytes offset) s = .fault f →
    (s.run ≠ .halted → t = { s with run := .faulted f }) ∧ (s.run = .halted → t = s))

/-- R238, R242, R255, R280 (the no-op step is D19, `reset` as the only way out is D23): after the end of a run no
transaction but `reset` leaves the end or touches a register, the stack pointer, RPL, mode or grid, and `Halted` stays
`Halted`, a failing `load` included (log 10). -/
def Obligations.OnlyResetLeavesTheEnd : Prop :=
  ∀ (c : Transaction) (s t : State), s.ended = true → c ≠ .reset → transact c s = .next t →
    t.ended = true ∧ (s.run = .halted → t.run = .halted) ∧ KeepsRegsBut [] s t ∧ t.i = s.i ∧ t.pc = s.pc ∧ t.sp = s.sp ∧ t.rpl = s.rpl ∧
    t.mode = s.mode ∧ t.fb = s.fb ∧ t.dirty = s.dirty

/-! ## Construction, reset and the host's transactions -/

/-- R271 and R33's column "after construction" (Normal mode, the dark grid and `Dirty = 0` are the spec's own decision D24):
the state the model starts from. -/
def Obligations.ConstructedState : Prop :=
  let s := State.reset
  (∀ r, s.getV r = 0) ∧ (∀ k, s.getRpl k = 0) ∧ s.i = 0 ∧ s.pc = 0x200 ∧ s.sp = 0x52 ∧ s.dt = 0 ∧ s.st = 0 ∧
  (∀ a, s.memRead a = 0) ∧ s.mode = .normal ∧ s.dimensions = (64, 32) ∧ s.fb.shaped 64 32 ∧
  (∀ x y, s.fb.pixel x y = false) ∧ s.dirty = 0 ∧ s.run = .running

/-- R270 (`Run <- Running` is the spec's own decision D23): `reset()` gives these registers their values in every run state
and keeps memory, mode, grid and `Dirty`. -/
def Obligations.ResetTransaction : Prop :=
  ∀ s : State, ∃ t, transact .reset s = .next t ∧
    (∀ r, t.getV r = 0) ∧ (∀ k, t.getRpl k = 0) ∧ t.pc = 0x200 ∧ t.sp = 0x52 ∧ t.i = 0 ∧ t.dt = 0 ∧ t.st = 0 ∧
    t.run = .running ∧ KeepsMemory s t ∧ t.mode = s.mode ∧ t.fb = s.fb ∧ t.dirty = s.dirty

/-- R64 and R236 (nothing copied on failure is D22, legal in every run state is D36): `load` fails with `OutOfBounds`
when it would pass the end of memory and returns that fault; else it stores each byte at its address, unmasked, and
nothing else, and returns nothing. That a failing `load` takes a waiting block to `Faulted` but leaves a `Halted` one
`Halted`, by R242 and R255 (D23) against R64 and R236, is the model's reading in log 10. -/
def Obligations.LoadCopiesOrFails : Prop :=
  ∀ (s : State) (bytes : List Byte) (offset : Word),
    (offset.toNat + bytes.length > 4096 →
      (s.run ≠ .halted →
        transact (.load bytes offset) s = .next { s with run := .faulted (.outOfBounds offset bytes.length) }) ∧
      (s.run = .halted → transact (.load bytes offset) s = .next s) ∧
      transactReturn (.load bytes offset) s = .fault (.outOfBounds offset bytes.length)) ∧
    (offset.toNat + bytes.length ≤ 4096 → transactReturn (.load bytes offset) s = .next .nothing ∧
      ∃ t, transact (.load bytes offset) s = .next t ∧
      (∀ k b, bytes[k]? = some b → t.mem.read (offset.toNat + k) = b) ∧
      (∀ a, a < offset.toNat ∨ offset.toNat + bytes.length ≤ a → t.mem.read a = s.mem.read a) ∧
      t = { s with mem := t.mem })

/-- R247 (in every run state is D25): a tick takes 1 from each timer that is above 0 and changes nothing else. -/
def Obligations.TicksCountDownAndSaturate : Prop :=
  ∀ s : State, ∃ t, transact .tickTimers s = .next t ∧
    t.dt.toNat = s.dt.toNat - 1 ∧ t.st.toNat = s.st.toNat - 1 ∧ t = { s with dt := t.dt, st := t.st }

/-- R244 and R245 (no effect outside a wait is D17 and D18): a key event ends the wait and stores the key, `quit` ends it
with `Halted` and stores nothing. -/
def Obligations.KeyEventAndQuitEndTheWait : Prop :=
  ∀ (s : State) (k : KeyId),
    (∀ r, s.run = .awaitingKey r →
      (∃ t, transact (.keyEvent k) s = .next t ∧ (t.getV r).toNat = k.toNat ∧ KeepsRegsBut [r] s t ∧
        t.run = .running ∧ t = { s with v := t.v, run := .running }) ∧
      transact .quit s = .next { s with run := .halted }) ∧
    ((∀ r, s.run ≠ .awaitingKey r) → transact (.keyEvent k) s = .next s ∧ transact .quit s = .next s)

/-- R180 (the refusal outside the grid is the model's reading of D28, log 11): `get_pixel` reads the pixel inside the active grid
and is refused outside it; `dimensions` is the active grid's size. -/
def Obligations.DisplayReads : Prop :=
  ∀ s : State,
    (s.mode = .normal → s.dimensions = (64, 32)) ∧ (s.mode = .extended → s.dimensions = (128, 64)) ∧
    s.dirtyCount = s.dirty ∧
    ∀ x y, (x < s.dimensions.1 → y < s.dimensions.2 → s.getPixel x y = .next (s.fb.pixel x y)) ∧
      (s.dimensions.1 ≤ x ∨ s.dimensions.2 ≤ y → s.getPixel x y = .refused .pixelOutsideGrid)

/-! ## Memory -/

/-- R50, R51 (no write protection is D32), R65: an access goes to its address modulo 4096; a byte reads as the last value
written to it and a write changes no other byte. -/
def Obligations.BytesReadAsLastWritten : Prop :=
  ∀ (s : State) (a b : Word) (v : Byte),
    (a.toNat % 4096 = b.toNat % 4096 → s.memRead a = s.memRead b ∧ (s.memWrite a v).memRead b = v) ∧
    (a.toNat % 4096 ≠ b.toNat % 4096 → (s.memWrite a v).memRead b = s.memRead b)

/-! ## Encoding -/

/-- R82 and R83: every well-formed instruction is what its own word decodes to, at every value of every operand. The
words' sub-opcode values are D7 (log 6). -/
def Obligations.EncodeThenDecode : Prop :=
  ∀ i : Instr, i.wf = true →
    decodeWord (encode i) = .ok i ∧ ∀ rest, decode (encodeBytes i ++ rest) = .ok (i, rest)

/-- R72, R75, R79: what a word decodes to is well-formed, and its own word agrees with that word in every bit that the
opcode row does not ignore. The words' sub-opcode values are D7 (log 6). That the ignored bits do not matter is D5 and
D6 (log 7). -/
def Obligations.DecodeThenEncode : Prop :=
  ∀ (w : Word) (i : Instr), decodeWord w = .ok i →
    i.wf = true ∧ encode i &&& significantBits i = w &&& significantBits i

/-- R80 and R82 (the sub-opcode values are the spec's own general knowledge, D7): the illegal words are exactly these, and
every one raises `UnknownOpcode` (`StepRunsTheDecodedInstruction`). -/
def Obligations.IllegalWordsExactly : Prop :=
  ∀ w : Word, (∃ e, decodeWord w = .error e) ↔
    (opOf w = 0x8 ∧ (nOf w ∈ [0x8, 0x9, 0xA, 0xB, 0xC, 0xD, 0xF] : Prop)) ∨
    (opOf w = 0xE ∧ (kkOf w ∉ [0x9E, 0xA1] : Prop)) ∨
    (opOf w = 0xF ∧
      (kkOf w ∉ [0x07, 0x0A, 0x15, 0x18, 0x1E, 0x29, 0x30, 0x33, 0x55, 0x65, 0x75, 0x85] : Prop))

/-- R75 (D5), R79 (D6), R149, R151: bits 11:8 of a listed 0x0 word, the low nibble of `5xyn` and `9xyn`, and `y` of `SHR` and
`SHL` do not matter. -/
def Obligations.IgnoredBitsDoNotMatter : Prop :=
  (∀ z n, decodeWord (wordXYN 0x0 z 0xC n) = .ok (.scd n)) ∧
  (∀ z, decodeWord (wordXKK 0x0 z 0xE0) = .ok .cls) ∧ (∀ z, decodeWord (wordXKK 0x0 z 0xEE) = .ok .ret) ∧
  (∀ z, decodeWord (wordXKK 0x0 z 0xFB) = .ok .scr) ∧ (∀ z, decodeWord (wordXKK 0x0 z 0xFC) = .ok .scl) ∧
  (∀ z, decodeWord (wordXKK 0x0 z 0xFD) = .ok .exit) ∧ (∀ z, decodeWord (wordXKK 0x0 z 0xFE) = .ok .low) ∧
  (∀ z, decodeWord (wordXKK 0x0 z 0xFF) = .ok .high) ∧
  (∀ x y n, decodeWord (wordXYN 0x5 x y n) = .ok (.seReg x y)) ∧
  (∀ x y n, decodeWord (wordXYN 0x9 x y n) = .ok (.sneReg x y)) ∧
  (∀ x y, decodeWord (wordXYN 0x8 x y 0x6) = .ok (.shr x)) ∧ (∀ x y, decodeWord (wordXYN 0x8 x y 0xE) = .ok (.shl x))

/-- A few words of 95_test_vectors.md (A1, J4, S4, A4e, W5, K1, F20) decode to the instructions they stand for there (a
sanity statement). That bits 11:8 of `0CE0` do not matter is D5 (log 7), the sub-opcode values are D7 (log 6). -/
def Obligations.SampleWordsDecode : Prop :=
  decodeWord 0x6A05 = .ok (.ldImm 0xA 0x05) ∧ decodeWord 0x2300 = .ok (.call 0x300) ∧
  decodeWord 0x0CE0 = .ok .cls ∧ decodeWord 0x8234 = .ok (.addReg 0x2 0x3) ∧
  decodeWord 0xD231 = .ok (.drw 0x2 0x3 0x1) ∧ decodeWord 0xE59E = .ok (.skpr 0x5) ∧
  decodeWord 0xF255 = .ok (.storeRegs 0x2)

/-! ## Invariants -/

/-- The state after construction (log 4) meets the model's invariant: R34's grid of the mode's size and even `SP`, and
the canonical list form of memory, which is the model's own representation (log 8). -/
def Obligations.ConstructionMeetsTheInvariant : Prop := State.reset.Inv

/-- Every step keeps the model's invariant: R34's grid of the mode's size and even `SP` (which the spec marks as
derived), and the canonical list form of memory, which is the model's own representation (log 8). -/
def Obligations.StepKeepsTheInvariant : Prop :=
  ∀ s t : State, s.Inv → step s = .next t → t.Inv

/-- Every transaction keeps the model's invariant, so every state reachable from construction (log 4) meets it: R34's
grid of the mode's size and even `SP`, and the canonical list form of memory, which is the model's own representation
(log 8). -/
def Obligations.TransactionsKeepTheInvariant : Prop :=
  (∀ (c : Transaction) (s t : State), s.Inv → transact c s = .next t → t.Inv) ∧ (∀ s : State, Reachable s → s.Inv)

/-! ## Who writes what -/

/-- R21 and R22: no instruction writes a general register other than its named destinations and, for the six flag-defining
instructions, `V[0xF]`. -/
def Obligations.RegistersHaveNoOtherWriter : Prop :=
  ∀ (i : Instr) (s t : State) (r : RegIx), exec i s = .next t → i.writesV r = false → t.getV r = s.getV r

/-- R20 and R56: only `CALL`, `BCD` and `LD [I], Vx` write memory. -/
def Obligations.MemoryHasNoOtherWriter : Prop :=
  ∀ (i : Instr) (s t : State), exec i s = .next t → i.writesMemory = false → KeepsMemory s t

/-- R23, R25 to R28, R31: which instructions may change `I`, `SP`, RPL, the timers, the mode and the run state; every other
instruction keeps them. -/
def Obligations.SpecialRegistersHaveNoOtherWriter : Prop :=
  ∀ (i : Instr) (s t : State), exec i s = .next t →
    (t.i ≠ s.i → (∃ a, i = .ldI a) ∨ ∃ x, i = .addI x ∨ i = .ldF x ∨ i = .ldHf x) ∧
    (t.sp ≠ s.sp → i = .ret ∨ ∃ a, i = .call a) ∧
    (t.rpl ≠ s.rpl → ∃ x, i = .storeRpl x) ∧
    (t.dt ≠ s.dt → ∃ x, i = .ldDt x) ∧
    (t.st ≠ s.st → ∃ x, i = .ldSt x) ∧
    (t.mode ≠ s.mode → i = .low ∨ i = .high) ∧
    (t.run ≠ s.run → i = .exit ∨ i = .ret ∨ (∃ a, i = .call a) ∨ ∃ x, i = .ldKey x ∨ i = .skpr x ∨ i = .skup x)

/-- R29 and R30 (D26 names the seven): `Dirty` rises by exactly 1 at each display instruction and at no other, and no other
changes the grid. -/
def Obligations.DirtyCountsDisplayUpdates : Prop :=
  ∀ (i : Instr) (s t : State), exec i s = .next t →
    t.dirty = s.dirty + (if i.updatesDisplay then 1 else 0) ∧ (i.updatesDisplay = false → t.fb = s.fb)

/-- R26: RPL is read only by `LD Vx, R`. Two states that differ in RPL alone go, by any other instruction, to states that
differ in RPL alone. -/
def Obligations.RplIsReadOnlyByItsLoad : Prop :=
  ∀ (i : Instr) (s t : State) (rpl : Vector Byte 16), (∀ x, i ≠ .loadRpl x) → exec i s = .next t →
    ∃ u, exec i { s with rpl := rpl } = .next u ∧ u = { t with rpl := u.rpl }

/-- R27 and R30: no instruction reads `ST` or `Dirty`. Two states that differ in these alone go to states that differ in these
alone. -/
def Obligations.SoundTimerAndDirtyAreNeverRead : Prop :=
  ∀ (i : Instr) (s t : State) (st : Byte) (dirty : Nat), exec i s = .next t →
    ∃ u, exec i { s with st := st, dirty := dirty } = .next u ∧ u = { t with st := u.st, dirty := u.dirty }

/-! ## The system family -/

/-- R100 (the encoding rests on D5, and the all-zero word is the spec's own derivation): `SYS` is a no-op, and every 0x0
word whose low byte is not listed is `SYS`. -/
def Obligations.SysIsNoOp : Prop :=
  (∀ nnn, isListedSystemByte (nnn.extractLsb' 0 8) = false → decodeWord (wordNNN 0x0 nnn) = .ok (.sys nnn)) ∧
  (∀ (s : State) nnn, exec (.sys nnn) s = .next s)

/-- R101: `CLS` darkens every pixel, keeps the mode and counts one update, and changes nothing else. That bits 11:8 of
the word do not matter is D5 (log 7). -/
def Obligations.ClsDarkensTheGrid : Prop :=
  (∀ z, decodeWord (wordXKK 0x0 z 0xE0) = .ok .cls) ∧
  ∀ s : State, ∃ t, exec .cls s = .next t ∧
    (∀ x y, t.fb.pixel x y = false) ∧ t.fb.shaped s.mode.width s.mode.height ∧ t.mode = s.mode ∧
    t.dirty = s.dirty + 1 ∧ OnlyDisplay s t

/-- R102 (the bound is the spec's own decision D4): `RETURN` pops the high byte at `SP - 1` and the low byte at `SP -
2` and goes there; with `SP < 2` it faults. That bits 11:8 of the word do not matter is D5 (log 7). -/
def Obligations.ReturnPopsTheAddress : Prop :=
  (∀ z, decodeWord (wordXKK 0x0 z 0xEE) = .ok .ret) ∧
  ∀ s : State,
    (s.sp.toNat < 2 → exec .ret s = .next { s with run := .faulted (.stackUnderflow s.sp) }) ∧
    (2 ≤ s.sp.toNat → ∃ t, exec .ret s = .next t ∧
      t.pc.toNat = 256 * (s.memRead (BitVec.ofNat 16 (s.sp.toNat - 1))).toNat +
        (s.memRead (BitVec.ofNat 16 (s.sp.toNat - 2))).toNat ∧
      t.sp.toNat = s.sp.toNat - 2 ∧ KeepsMemory s t ∧ t = { s with pc := t.pc, sp := t.sp })

/-- R103 (in both modes by D27): `SCD n` moves every pixel down by `n` rows of the active grid; the top `n` rows go
dark. That bits 11:8 of the word do not matter is D5 (log 7). -/
def Obligations.ScdScrollsDown : Prop :=
  (∀ z n, decodeWord (wordXYN 0x0 z 0xC n) = .ok (.scd n)) ∧
  ∀ (s : State) (n : Nibble), s.fb.shaped s.mode.width s.mode.height → ∃ t, exec (.scd n) s = .next t ∧
    (∀ x y, x < s.mode.width → y < s.mode.height →
      t.fb.pixel x y = if y < n.toNat then false else s.fb.pixel x (y - n.toNat)) ∧
    t.fb.shaped s.mode.width s.mode.height ∧ t.mode = s.mode ∧ t.dirty = s.dirty + 1 ∧ OnlyDisplay s t

/-- R104 and R105: `SCR` and `SCL` move every pixel 4 columns right or left without wrapping; the vacated columns go
dark. That bits 11:8 of the word do not matter is D5 (log 7). -/
def Obligations.ScrAndSclScrollSideways : Prop :=
  (∀ z, decodeWord (wordXKK 0x0 z 0xFB) = .ok .scr) ∧ (∀ z, decodeWord (wordXKK 0x0 z 0xFC) = .ok .scl) ∧
  ∀ s : State, s.fb.shaped s.mode.width s.mode.height →
    (∃ t, exec .scr s = .next t ∧
      (∀ x y, x < s.mode.width → y < s.mode.height →
        t.fb.pixel x y = if x < 4 then false else s.fb.pixel (x - 4) y) ∧
      t.fb.shaped s.mode.width s.mode.height ∧ t.mode = s.mode ∧ t.dirty = s.dirty + 1 ∧ OnlyDisplay s t) ∧
    (∃ t, exec .scl s = .next t ∧
      (∀ x y, x < s.mode.width → y < s.mode.height →
        t.fb.pixel x y = if x + 4 < s.mode.width then s.fb.pixel (x + 4) y else false) ∧
      t.fb.shaped s.mode.width s.mode.height ∧ t.mode = s.mode ∧ t.dirty = s.dirty + 1 ∧ OnlyDisplay s t)

/-- R106: `EXIT` halts with `PC` at its advanced value, and nothing after it executes. That bits 11:8 of the word do
not matter is D5 (log 7). -/
def Obligations.ExitHalts : Prop :=
  (∀ z, decodeWord (wordXKK 0x0 z 0xFD) = .ok .exit) ∧
  ∀ s : State, ∃ t, exec .exit s = .next t ∧ t = { s with run := .halted } ∧ step t = .next t ∧
    stepReturn t = .next (none, .halted)

/-- R107 and R108: `LOW` and `HIGH` switch the mode, give the grid its new size and darken it, from either mode. That
bits 11:8 of the word do not matter is D5 (log 7). -/
def Obligations.LowAndHighSwitchTheMode : Prop :=
  (∀ z, decodeWord (wordXKK 0x0 z 0xFE) = .ok .low) ∧ (∀ z, decodeWord (wordXKK 0x0 z 0xFF) = .ok .high) ∧
  ∀ s : State,
    (∃ t, exec .low s = .next t ∧ t.mode = .normal ∧ t.fb.shaped 64 32 ∧ (∀ x y, t.fb.pixel x y = false) ∧
      t.dirty = s.dirty + 1 ∧ OnlyDisplay s t) ∧
    (∃ t, exec .high s = .next t ∧ t.mode = .extended ∧ t.fb.shaped 128 64 ∧ (∀ x y, t.fb.pixel x y = false) ∧
      t.dirty = s.dirty + 1 ∧ OnlyDisplay s t)

/-! ## Control transfer -/

/-- R121: `JP nnn` goes to `nnn`. The place of `nnn` in the word is D8 (log 6). -/
def Obligations.JpGoesToItsAddress : Prop :=
  (∀ nnn, decodeWord (wordNNN 0x1 nnn) = .ok (.jp nnn)) ∧
  ∀ (s : State) (nnn : Addr), ∃ t, exec (.jp nnn) s = .next t ∧ t.pc.toNat = nnn.toNat ∧ OnlyPc s t

/-- R127 (the wrap at 2^16 is the spec's own decision D2): `JP I, nnn` goes to `I + nnn`, not to `V0 + nnn`. The place
of `nnn` in the word is D8 (log 6). -/
def Obligations.JpIndexedAddsTheIndex : Prop :=
  (∀ nnn, decodeWord (wordNNN 0xB nnn) = .ok (.jpI nnn)) ∧
  ∀ (s : State) (nnn : Addr), ∃ t, exec (.jpI nnn) s = .next t ∧
    t.pc.toNat = (s.i.toNat + nnn.toNat) % 65536 ∧ OnlyPc s t

/-- R122 (the bound is the spec's own decision D4): `CALL` pushes the advanced `PC`, low byte first, raises `SP` by 2
and goes to `nnn`; with `SP > 0xFD` it faults and writes nothing. The place of `nnn` in the word is D8 (log 6). -/
def Obligations.CallPushesTheAddress : Prop :=
  (∀ nnn, decodeWord (wordNNN 0x2 nnn) = .ok (.call nnn)) ∧
  ∀ (s : State) (nnn : Addr),
    (0xFD < s.sp.toNat → exec (.call nnn) s = .next { s with run := .faulted (.stackOverflow s.sp) }) ∧
    (s.sp.toNat ≤ 0xFD → ∃ t, exec (.call nnn) s = .next t ∧
      (s.stackAddr 0).toNat = s.sp.toNat ∧ (s.stackAddr 1).toNat = s.sp.toNat + 1 ∧
      (t.memRead (s.stackAddr 0)).toNat = s.pc.toNat % 256 ∧ (t.memRead (s.stackAddr 1)).toNat = s.pc.toNat / 256 ∧
      KeepsMemoryBut [s.stackAddr 0, s.stackAddr 1] s t ∧
      t.sp.toNat = s.sp.toNat + 2 ∧ t.pc.toNat = nnn.toNat ∧ t = { s with mem := t.mem, pc := t.pc, sp := t.sp })

/-- The round trip of 95_test_vectors.md L1.4, from R102 and R122: a `CALL` and then a `RETURN` at its target come back
to the address after the `CALL`, with `SP` and everything but the two stack bytes as before. The bound on `SP` is D4
(log 7). -/
def Obligations.CallThenReturnComesBack : Prop :=
  ∀ (s t : State) (nnn : Addr), s.run = .running → decodeWord s.fetchWord = .ok (.call nnn) → s.sp.toNat ≤ 0xFD →
    step s = .next t → decodeWord t.fetchWord = .ok .ret →
    ∃ u, step t = .next u ∧ u.pc = s.pc + 2 ∧ u.sp = s.sp ∧ KeepsMemoryBut [s.stackAddr 0, s.stackAddr 1] s u ∧
      u = { s with pc := s.pc + 2, mem := t.mem }

/-- R123 and R124: `SE Vx, kk` and `SNE Vx, kk` skip the next word when the register equals, or differs from, the byte. -/
def Obligations.SkipsOnImmediate : Prop :=
  (∀ x kk, decodeWord (wordXKK 0x3 x kk) = .ok (.seImm x kk)) ∧
  (∀ x kk, decodeWord (wordXKK 0x4 x kk) = .ok (.sneImm x kk)) ∧
  ∀ (s : State) (x : RegIx) (kk : Byte),
    (∃ t, exec (.seImm x kk) s = .next t ∧ t.pc = (if s.getV x = kk then s.pc + 2 else s.pc) ∧ OnlyPc s t) ∧
    (∃ t, exec (.sneImm x kk) s = .next t ∧ t.pc = (if s.getV x = kk then s.pc else s.pc + 2) ∧ OnlyPc s t)

/-- R125 and R126 (any low nibble, by D6): `SE Vx, Vy` and `SNE Vx, Vy` skip when the registers are equal, or differ. -/
def Obligations.SkipsOnRegisters : Prop :=
  (∀ x y n, decodeWord (wordXYN 0x5 x y n) = .ok (.seReg x y)) ∧
  (∀ x y n, decodeWord (wordXYN 0x9 x y n) = .ok (.sneReg x y)) ∧
  ∀ (s : State) (x y : RegIx),
    (∃ t, exec (.seReg x y) s = .next t ∧ t.pc = (if s.getV x = s.getV y then s.pc + 2 else s.pc) ∧ OnlyPc s t) ∧
    (∃ t, exec (.sneReg x y) s = .next t ∧ t.pc = (if s.getV x = s.getV y then s.pc else s.pc + 2) ∧ OnlyPc s t)

/-! ## Registers and arithmetic -/

/-- R140 and R152: `LD Vx, kk` and `LD I, nnn` load their immediates. The place of `nnn` in the word is D8 (log 6). -/
def Obligations.LoadsOfImmediates : Prop :=
  (∀ x kk, decodeWord (wordXKK 0x6 x kk) = .ok (.ldImm x kk)) ∧ (∀ nnn, decodeWord (wordNNN 0xA nnn) = .ok (.ldI nnn)) ∧
  ∀ s : State,
    (∀ x kk, ∃ t, exec (.ldImm x kk) s = .next t ∧ t.getV x = kk ∧ OnlyRegs [x] s t) ∧
    (∀ nnn, ∃ t, exec (.ldI nnn) s = .next t ∧ t.i.toNat = nnn.toNat ∧ OnlyIndex s t)

/-- R141: `ADD Vx, kk` adds modulo 256 and writes no flag; two adds whose immediates sum to 256 restore the register. -/
def Obligations.AddImmediateWrapsWithoutFlag : Prop :=
  (∀ x kk, decodeWord (wordXKK 0x7 x kk) = .ok (.addImm x kk)) ∧
  (∀ (s : State) x kk, ∃ t, exec (.addImm x kk) s = .next t ∧
    (t.getV x).toNat = ((s.getV x).toNat + kk.toNat) % 256 ∧ OnlyRegs [x] s t) ∧
  (∀ (s t u : State) x (k l : Byte), k.toNat + l.toNat = 256 → exec (.addImm x k) s = .next t →
    exec (.addImm x l) t = .next u → u = s)

/-- R143 to R146: `LD`, `OR`, `AND`, `XOR Vx, Vy`, bit by bit; `V[0xF]` only as the destination; with `x = y` the first
three change nothing and `XOR` gives 0. The words' sub-opcode values are D7 (log 6). -/
def Obligations.CopyAndLogic : Prop :=
  (∀ x y, decodeWord (wordXYN 0x8 x y 0x0) = .ok (.ldReg x y) ∧ decodeWord (wordXYN 0x8 x y 0x1) = .ok (.orReg x y) ∧
    decodeWord (wordXYN 0x8 x y 0x2) = .ok (.andReg x y) ∧ decodeWord (wordXYN 0x8 x y 0x3) = .ok (.xorReg x y)) ∧
  ∀ (s : State) (x y : RegIx),
    (∃ t, exec (.ldReg x y) s = .next t ∧ t.getV x = s.getV y ∧ OnlyRegs [x] s t ∧ (x = y → t = s)) ∧
    (∃ t, exec (.orReg x y) s = .next t ∧ OnlyRegs [x] s t ∧ (x = y → t = s) ∧
      ∀ k, (t.getV x).getLsbD k = ((s.getV x).getLsbD k || (s.getV y).getLsbD k)) ∧
    (∃ t, exec (.andReg x y) s = .next t ∧ OnlyRegs [x] s t ∧ (x = y → t = s) ∧
      ∀ k, (t.getV x).getLsbD k = ((s.getV x).getLsbD k && (s.getV y).getLsbD k)) ∧
    (∃ t, exec (.xorReg x y) s = .next t ∧ OnlyRegs [x] s t ∧ (x = y → t.getV x = 0) ∧
      ∀ k, (t.getV x).getLsbD k = ((s.getV x).getLsbD k ^^ (s.getV y).getLsbD k))

/-- R147: `ADD Vx, Vy` adds modulo 256 and always writes the carry to `V[0xF]`, last. The words' sub-opcode values are
D7 (log 6). -/
def Obligations.AddSetsCarry : Prop :=
  (∀ x y, decodeWord (wordXYN 0x8 x y 0x4) = .ok (.addReg x y)) ∧
  ∀ (s : State) (x y : RegIx), ∃ t, exec (.addReg x y) s = .next t ∧
    (x ≠ 0xF → (t.getV x).toNat = ((s.getV x).toNat + (s.getV y).toNat) % 256) ∧
    t.getV 0xF = (if (s.getV x).toNat + (s.getV y).toNat > 255 then 1 else 0) ∧ OnlyRegs [x, 0xF] s t

/-- R148 and R150, with R142 (the order is D11; 0 for equal operands is the spec's own resolution C4, D12): `SUB` and
`SUBN` subtract modulo 256 and write 1 to `V[0xF]`, last, exactly when the minuend is the greater. The words'
sub-opcode values are D7 (log 6). -/
def Obligations.SubtractSetsNoBorrow : Prop :=
  (∀ x y, decodeWord (wordXYN 0x8 x y 0x5) = .ok (.subReg x y)) ∧
  (∀ x y, decodeWord (wordXYN 0x8 x y 0x7) = .ok (.subnReg x y)) ∧
  ∀ (s : State) (x y : RegIx),
    (∃ t, exec (.subReg x y) s = .next t ∧
      (x ≠ 0xF → (t.getV x).toNat = (256 + (s.getV x).toNat - (s.getV y).toNat) % 256) ∧
      t.getV 0xF = (if (s.getV y).toNat < (s.getV x).toNat then 1 else 0) ∧ OnlyRegs [x, 0xF] s t) ∧
    (∃ t, exec (.subnReg x y) s = .next t ∧
      (x ≠ 0xF → (t.getV x).toNat = (256 + (s.getV y).toNat - (s.getV x).toNat) % 256) ∧
      t.getV 0xF = (if (s.getV x).toNat < (s.getV y).toNat then 1 else 0) ∧ OnlyRegs [x, 0xF] s t)

/-- R149 and R151: `SHR Vx` and `SHL Vx` shift `Vx` by one, whatever `y` is, and write the bit shifted out to `V[0xF]`,
last. The words' sub-opcode values are D7 (log 6). -/
def Obligations.ShiftsSetTheBitShiftedOut : Prop :=
  (∀ x y, decodeWord (wordXYN 0x8 x y 0x6) = .ok (.shr x)) ∧ (∀ x y, decodeWord (wordXYN 0x8 x y 0xE) = .ok (.shl x)) ∧
  ∀ (s : State) (x : RegIx),
    (∃ t, exec (.shr x) s = .next t ∧ (x ≠ 0xF → (t.getV x).toNat = (s.getV x).toNat / 2) ∧
      (t.getV 0xF).toNat = (s.getV x).toNat % 2 ∧ OnlyRegs [x, 0xF] s t) ∧
    (∃ t, exec (.shl x) s = .next t ∧ (x ≠ 0xF → (t.getV x).toNat = 2 * (s.getV x).toNat % 256) ∧
      (t.getV 0xF).toNat = (s.getV x).toNat / 128 ∧ OnlyRegs [x, 0xF] s t)

/-- R153 (the byte is open, D16): `RND Vx, kk` stores the byte that `RAND` supplies, masked: the oldest byte presented, or a
free value when none is (log 2), whatever these are. -/
def Obligations.RndMasksTheSuppliedByte : Prop :=
  (∀ x kk, decodeWord (wordXKK 0xC x kk) = .ok (.rnd x kk)) ∧
  ∀ (s : State) (x : RegIx) (kk : Byte), ∃ t, exec (.rnd x kk) s = .next t ∧
    (∀ r rest, s.rndInputs = r :: rest → t.getV x = r &&& kk ∧ t.rndInputs = rest ∧ t.draws = s.draws) ∧
    (s.rndInputs = [] → t.getV x = Config.freeRandom s.draws &&& kk ∧ t.rndInputs = [] ∧ t.draws = s.draws + 1) ∧
    KeepsRegsBut [x] s t ∧ KeepsMemory s t ∧ t = { s with v := t.v, rndInputs := t.rndInputs, draws := t.draws }

/-! ## Drawing -/

/-- R176 to R178 (bit order D9, `n = 0` in Normal mode D10): `DRW` toggles exactly the pixels under lit sprite pixels,
sets `V[0xF]` to 1 exactly when one of them was lit and else to 0, counts one update, and changes nothing else. The
place of `y` in the word is D8 (log 6). -/
def Obligations.DrwTogglesTheSpritesPixels : Prop :=
  (∀ x y n, decodeWord (wordXYN 0xD x y n) = .ok (.drw x y n)) ∧
  ∀ (s : State) (x y : RegIx) (n : Nibble), s.fb.shaped s.mode.width s.mode.height →
    ∃ t, exec (.drw x y n) s = .next t ∧
      (∀ u v, u < s.mode.width → v < s.mode.height →
        (s.spriteLights x y n u v → t.fb.pixel u v = !s.fb.pixel u v) ∧
        (¬ s.spriteLights x y n u v → t.fb.pixel u v = s.fb.pixel u v)) ∧
      ((∃ u v, s.spriteLights x y n u v ∧ s.fb.pixel u v = true) → t.getV 0xF = 1) ∧
      ((∀ u v, s.spriteLights x y n u v → s.fb.pixel u v = false) → t.getV 0xF = 0) ∧
      t.fb.shaped s.mode.width s.mode.height ∧ t.dirty = s.dirty + 1 ∧
      KeepsRegsBut [0xF] s t ∧ KeepsMemory s t ∧ t = { s with v := t.v, fb := t.fb, dirty := t.dirty }

/-- 95_test_vectors.md L1.5 as corrected by C5: the same sprite drawn twice at the same place restores every pixel. The
first draw reports a collision exactly when some pixel under a lit sprite pixel was lit before it, the second exactly when
some such pixel was dark before the first. The place is the same when the two coordinate registers still hold what they
held, which the first draw can change only through `V[0xF]`. -/
def Obligations.DrawingTwiceRestores : Prop :=
  ∀ (s t u : State) (x y : RegIx) (n : Nibble), s.fb.shaped s.mode.width s.mode.height →
    exec (.drw x y n) s = .next t → t.getV x = s.getV x → t.getV y = s.getV y → exec (.drw x y n) t = .next u →
    (∀ a b, u.fb.pixel a b = s.fb.pixel a b) ∧ u.dirty = s.dirty + 2 ∧
    ((∃ a b, s.spriteLights x y n a b ∧ s.fb.pixel a b = true) → t.getV 0xF = 1) ∧
    ((∀ a b, s.spriteLights x y n a b → s.fb.pixel a b = false) → t.getV 0xF = 0) ∧
    ((∃ a b, s.spriteLights x y n a b ∧ s.fb.pixel a b = false) → u.getV 0xF = 1) ∧
    ((∀ a b, s.spriteLights x y n a b → s.fb.pixel a b = true) → u.getV 0xF = 0)

/-! ## Keys -/

/-- R190 to R192 (the fault above 15 is the spec's own decision D15): `SKPR` and `SKUP` skip on the state of the key
that `V[x]` names, from the oldest sample presented, or a free one when none is (log 3); a register above 15 faults and
queries nothing. The words' sub-opcode values are D7 (log 6). -/
def Obligations.KeySkips : Prop :=
  (∀ x, decodeWord (wordXKK 0xE x 0x9E) = .ok (.skpr x)) ∧ (∀ x, decodeWord (wordXKK 0xE x 0xA1) = .ok (.skup x)) ∧
  ∀ (s : State) (x : RegIx),
    (15 < (s.getV x).toNat →
      exec (.skpr x) s = .next { s with run := .faulted (.unknownKey (s.getV x)) } ∧
      exec (.skup x) s = .next { s with run := .faulted (.unknownKey (s.getV x)) }) ∧
    (∀ h : (s.getV x).toNat < 16, ∃ t u, exec (.skpr x) s = .next t ∧ exec (.skup x) s = .next u ∧
      (∀ sample rest, s.keyInputs = sample :: rest →
        t.pc = (if sample[(s.getV x).toNat] then s.pc + 2 else s.pc) ∧
        u.pc = (if sample[(s.getV x).toNat] then s.pc else s.pc + 2) ∧ t.keyInputs = rest ∧ t.draws = s.draws) ∧
      (s.keyInputs = [] →
        t.pc = (if (Config.freeKeys s.draws)[(s.getV x).toNat] then s.pc + 2 else s.pc) ∧
        u.pc = (if (Config.freeKeys s.draws)[(s.getV x).toNat] then s.pc else s.pc + 2) ∧
        t.keyInputs = [] ∧ t.draws = s.draws + 1) ∧
      KeepsMemory s t ∧ t = { s with pc := t.pc, keyInputs := t.keyInputs, draws := t.draws } ∧
      u = { t with pc := u.pc })

/-! ## Timers, index, memory and RPL -/

/-- R200, R202, R203: `LD Vx, DT`, `LD DT, Vx` and `LD ST, Vx` copy between the register and the timer. The words'
sub-opcode values are D7 (log 6). -/
def Obligations.TimerTransfers : Prop :=
  (∀ x, decodeWord (wordXKK 0xF x 0x07) = .ok (.ldFromDt x) ∧ decodeWord (wordXKK 0xF x 0x15) = .ok (.ldDt x) ∧
    decodeWord (wordXKK 0xF x 0x18) = .ok (.ldSt x)) ∧
  ∀ (s : State) (x : RegIx),
    (∃ t, exec (.ldFromDt x) s = .next t ∧ t.getV x = s.dt ∧ OnlyRegs [x] s t) ∧
    (∃ t, exec (.ldDt x) s = .next t ∧ t.dt = s.getV x ∧ KeepsMemory s t ∧ t = { s with dt := t.dt }) ∧
    (∃ t, exec (.ldSt x) s = .next t ∧ t.st = s.getV x ∧ KeepsMemory s t ∧ t = { s with st := t.st })

/-- R201, R243, R244, R245 (only a later key event ends the wait, D17; a step in the wait is a no-op, D19): `LD Vx, K`
enters the wait for `x` with `PC` at the address after it; a further `step` stays in that state and returns
`AwaitingKey(x)`, and so does every one after it (what its own step returns is in `SignalsOfEveryInstruction`); a key
event then stores the key and execution resumes there, `quit` halts instead. The words' sub-opcode values are D7 (log
6). -/
def Obligations.LdKeyWaits : Prop :=
  (∀ x, decodeWord (wordXKK 0xF x 0x0A) = .ok (.ldKey x)) ∧
  ∀ (s : State) (x : RegIx), ∃ t, exec (.ldKey x) s = .next t ∧ t = { s with run := .awaitingKey x } ∧
    step t = .next t ∧ stepReturn t = .next (none, .awaitingKey x) ∧
    (∀ k : KeyId, ∃ u, transact (.keyEvent k) t = .next u ∧ (u.getV x).toNat = k.toNat ∧ u.run = .running ∧
      KeepsRegsBut [x] s u ∧ u = { s with v := u.v, run := .running }) ∧
    transact .quit t = .next { s with run := .halted }

/-- R204 (the wrap at 2^16 is D3), R205 and R206 (all 8 bits of the index, D14): `ADD I, Vx`, `LD F, Vx` and `LD HF,
Vx`; none writes a flag. The words' sub-opcode values are D7 (log 6). -/
def Obligations.IndexArithmetic : Prop :=
  (∀ x, decodeWord (wordXKK 0xF x 0x1E) = .ok (.addI x) ∧ decodeWord (wordXKK 0xF x 0x29) = .ok (.ldF x) ∧
    decodeWord (wordXKK 0xF x 0x30) = .ok (.ldHf x)) ∧
  ∀ (s : State) (x : RegIx),
    (∃ t, exec (.addI x) s = .next t ∧ t.i.toNat = (s.i.toNat + (s.getV x).toNat) % 65536 ∧ OnlyIndex s t) ∧
    (∃ t, exec (.ldF x) s = .next t ∧ t.i.toNat = (s.getV x).toNat * 5 ∧ OnlyIndex s t) ∧
    (∃ t, exec (.ldHf x) s = .next t ∧ t.i.toNat = (s.getV x).toNat * 10 ∧ OnlyIndex s t)

/-- R207: `BCD Vx` stores the hundreds, tens and ones digit at `I`, `I + 1`, `I + 2`, each address masked, and changes
no other byte and no register. The words' sub-opcode values are D7 (log 6). -/
def Obligations.BcdStoresTheDigits : Prop :=
  (∀ x, decodeWord (wordXKK 0xF x 0x33) = .ok (.bcd x)) ∧
  ∀ (s : State) (x : RegIx), ∃ t, exec (.bcd x) s = .next t ∧
    (t.memRead s.i).toNat = (s.getV x).toNat / 100 ∧
    (t.memRead (s.i + 1)).toNat = (s.getV x).toNat / 10 % 10 ∧
    (t.memRead (s.i + 2)).toNat = (s.getV x).toNat % 10 ∧
    OnlyMemoryAt [s.indexed 0, s.indexed 1, s.indexed 2] s t

/-- R208 (`I` unchanged is D13): `LD [I], Vx` stores `V0` to `Vx` at `I` and up, each address masked, and changes no
other byte and no register. The words' sub-opcode values are D7 (log 6). -/
def Obligations.StoreRegsWritesTheRange : Prop :=
  (∀ x, decodeWord (wordXKK 0xF x 0x55) = .ok (.storeRegs x)) ∧
  ∀ (s : State) (x : RegIx), ∃ t, exec (.storeRegs x) s = .next t ∧
    (∀ k : RegIx, k.toNat ≤ x.toNat → t.memRead (s.i + BitVec.ofNat 16 k.toNat) = s.getV k) ∧
    OnlyMemoryAt ((List.range (x.toNat + 1)).map s.indexed) s t

/-- R209 (`I` unchanged is D13): `LD Vx, [I]` loads `V0` to `Vx` from `I` and up, each address masked, and changes
nothing else. The words' sub-opcode values are D7 (log 6). -/
def Obligations.LoadRegsReadsTheRange : Prop :=
  (∀ x, decodeWord (wordXKK 0xF x 0x65) = .ok (.loadRegs x)) ∧
  ∀ (s : State) (x : RegIx), ∃ t, exec (.loadRegs x) s = .next t ∧
    (∀ k : RegIx, t.getV k =
      if k.toNat ≤ x.toNat then s.memRead (s.i + BitVec.ofNat 16 k.toNat) else s.getV k) ∧
    KeepsMemory s t ∧ t = { s with v := t.v }

/-- R210 and R211: `LD R, Vx` and `LD Vx, R` copy entries 0 to `x`, for every `x`, and nothing else; memory is
unchanged. The words' sub-opcode values are D7 (log 6). -/
def Obligations.RplTransfers : Prop :=
  (∀ x, decodeWord (wordXKK 0xF x 0x75) = .ok (.storeRpl x)) ∧ (∀ x, decodeWord (wordXKK 0xF x 0x85) = .ok (.loadRpl x)) ∧
  ∀ (s : State) (x : RegIx),
    (∃ t, exec (.storeRpl x) s = .next t ∧
      (∀ k : RegIx, t.getRpl k = if k.toNat ≤ x.toNat then s.getV k else s.getRpl k) ∧
      KeepsMemory s t ∧ t = { s with rpl := t.rpl }) ∧
    (∃ t, exec (.loadRpl x) s = .next t ∧
      (∀ k : RegIx, t.getV k = if k.toNat ≤ x.toNat then s.getRpl k else s.getV k) ∧
      KeepsMemory s t ∧ t = { s with v := t.v })

/-! ## The host's step and what transactions return -/

/-- R251 with R7, R249, R250 (the inputs are open, D16 and D35; the model presents them by log 2 and log 3): `step()` with a
key state and a random byte runs the fetched instruction on exactly these and draws no free value: `RND` masks that byte,
`SKPR` and `SKUP` skip on that key state. What is not taken is gone. An illegal word faults, and outside `Running` nothing
but the inputs changes (D19). -/
def Obligations.HostStepTakesItsInputs : Prop :=
  ∀ (s : State) (keys : KeySample) (rnd : Byte),
    (s.run = .running → ∀ i, decodeWord s.fetchWord = .ok i →
      ∃ t, exec i { s with pc := s.pc + 2, keyInputs := [keys], rndInputs := [rnd] } = .next t ∧
        transact (.step keys rnd) s = .next { t with keyInputs := [], rndInputs := [] } ∧ t.draws = s.draws ∧
        (∀ x kk, i = .rnd x kk → t.getV x = rnd &&& kk) ∧
        (∀ x, ∀ h : (s.getV x).toNat < 16,
          (i = .skpr x → t.pc = if keys[(s.getV x).toNat] then s.pc + 4 else s.pc + 2) ∧
          (i = .skup x → t.pc = if keys[(s.getV x).toNat] then s.pc + 2 else s.pc + 4))) ∧
    (s.run = .running → ∀ e, decodeWord s.fetchWord = .error e →
      transact (.step keys rnd) s = .next { s with
        pc := s.pc + 2, run := .faulted (.unknownOpcode s.fetchWord), keyInputs := [], rndInputs := [] }) ∧
    (s.run ≠ .running → transact (.step keys rnd) s = .next { s with keyInputs := [], rndInputs := [] })

/-- R251's outputs and R236 (D1, D20): `step()` returns the executed word, none outside `Running`, with the signal of
the run state it leaves, or the fault that run state records; `load` returns its fault exactly when it passes the end
of memory, whatever the run state was; the other transactions return nothing (what `Run`
then holds in a `Halted` block is log 10). -/
def Obligations.TransactionsReturnTheirOutputs : Prop :=
  ∀ s : State,
    (∀ keys rnd t, transact (.step keys rnd) s = .next t →
      (s.run = .running → s.executedWord = some s.fetchWord) ∧ (s.run ≠ .running → s.executedWord = none) ∧
      (t.run = .running → transactReturn (.step keys rnd) s = .next (.executed s.executedWord .continue_)) ∧
      (∀ r, t.run = .awaitingKey r →
        transactReturn (.step keys rnd) s = .next (.executed s.executedWord (.awaitingKey r))) ∧
      (t.run = .halted → transactReturn (.step keys rnd) s = .next (.executed s.executedWord .halted)) ∧
      (∀ f, t.run = .faulted f → transactReturn (.step keys rnd) s = .fault f)) ∧
    (∀ bytes offset f, transactReturn (.load bytes offset) s = .fault f ↔
      4096 < offset.toNat + bytes.length ∧ f = .outOfBounds offset bytes.length) ∧
    (∀ bytes offset, offset.toNat + bytes.length ≤ 4096 →
      transactReturn (.load bytes offset) s = .next .nothing) ∧
    transactReturn .tickTimers s = .next .nothing ∧ transactReturn .reset s = .next .nothing ∧
    (∀ k, transactReturn (.keyEvent k) s = .next .nothing) ∧ transactReturn .quit s = .next .nothing

end
end

