-- ==== Sys2Proof/Laws/Decode.lean ====
section
/-!
SUPPORT. The fields of a word put together from its parts (R71, R72), and the way back.
-/

namespace Sys2Proof

/-! ## The bits of the three formats -/

theorem wordNNN_getLsbD (op : BitVec 4) (nnn : Addr) (k : Nat) :
    (wordNNN op nnn).getLsbD k = if k < 12 then nnn.getLsbD k else op.getLsbD (k - 12) := by
  unfold wordNNN
  exact BitVec.getLsbD_append

theorem wordXKK_getLsbD (op : BitVec 4) (x : RegIx) (kk : Byte) (k : Nat) :
    (wordXKK op x kk).getLsbD k =
      if k < 8 then kk.getLsbD k else if k - 8 < 4 then x.getLsbD (k - 8) else op.getLsbD (k - 8 - 4) := by
  unfold wordXKK
  refine BitVec.getLsbD_append.trans ?_
  split
  · rfl
  · exact BitVec.getLsbD_append

theorem wordXYN_eq (op : BitVec 4) (x y : RegIx) (n : Nibble) : wordXYN op x y n = wordXKK op x (y ++ n) := by
  apply BitVec.eq_of_getLsbD_eq; intro k hk
  rw [wordXKK_getLsbD]
  unfold wordXYN
  refine BitVec.getLsbD_append.trans ?_
  have hyn : (y ++ n : Byte).getLsbD k = if k < 4 then n.getLsbD k else y.getLsbD (k - 4) := BitVec.getLsbD_append
  split
  · next h => rw [if_pos (by omega), hyn, if_pos h]
  · next h =>
    refine BitVec.getLsbD_append.trans ?_
    split
    · rw [if_pos (by omega), hyn, if_neg h]
    · rw [if_neg (by omega)]
      refine BitVec.getLsbD_append.trans ?_
      have e : k - 4 - 4 = k - 8 := by omega
      rw [e]

theorem field_getLsbD (w : Word) (lo width k : Nat) (h : k < width) :
    (w.extractLsb' lo width).getLsbD k = w.getLsbD (lo + k) := by
  rw [BitVec.getLsbD_extractLsb', decide_eq_true h, Bool.true_and]

/-! ## `op ++ nnn` -/

section
variable (op : BitVec 4) (nnn : Addr)

@[simp] theorem opOf_wordNNN : opOf (wordNNN op nnn) = op := by
  apply BitVec.eq_of_getLsbD_eq; intro k hk
  rw [opOf, field_getLsbD _ _ _ _ hk, wordNNN_getLsbD, if_neg (by omega), Nat.add_sub_cancel_left]

@[simp] theorem nnnOf_wordNNN : nnnOf (wordNNN op nnn) = nnn := by
  apply BitVec.eq_of_getLsbD_eq; intro k hk
  rw [nnnOf, field_getLsbD _ _ _ _ hk, wordNNN_getLsbD, Nat.zero_add, if_pos hk]

@[simp] theorem kkOf_wordNNN : kkOf (wordNNN op nnn) = nnn.extractLsb' 0 8 := by
  apply BitVec.eq_of_getLsbD_eq; intro k hk
  rw [kkOf, field_getLsbD _ _ _ _ hk, wordNNN_getLsbD, if_pos (by omega), BitVec.getLsbD_extractLsb',
    decide_eq_true hk, Bool.true_and]

@[simp] theorem yOf_wordNNN : yOf (wordNNN op nnn) = nnn.extractLsb' 4 4 := by
  apply BitVec.eq_of_getLsbD_eq; intro k hk
  rw [yOf, field_getLsbD _ _ _ _ hk, wordNNN_getLsbD, if_pos (by omega), BitVec.getLsbD_extractLsb',
    decide_eq_true hk, Bool.true_and]

end

/-! ## `op ++ x ++ kk` -/

section
variable (op : BitVec 4) (x : RegIx) (kk : Byte)

@[simp] theorem opOf_wordXKK : opOf (wordXKK op x kk) = op := by
  apply BitVec.eq_of_getLsbD_eq; intro k hk
  rw [opOf, field_getLsbD _ _ _ _ hk, wordXKK_getLsbD, if_neg (by omega), if_neg (by omega)]
  congr 1; omega

@[simp] theorem xOf_wordXKK : xOf (wordXKK op x kk) = x := by
  apply BitVec.eq_of_getLsbD_eq; intro k hk
  rw [xOf, field_getLsbD _ _ _ _ hk, wordXKK_getLsbD, if_neg (by omega), if_pos (by omega), Nat.add_sub_cancel_left]

@[simp] theorem kkOf_wordXKK : kkOf (wordXKK op x kk) = kk := by
  apply BitVec.eq_of_getLsbD_eq; intro k hk
  rw [kkOf, field_getLsbD _ _ _ _ hk, wordXKK_getLsbD, Nat.zero_add, if_pos hk]

@[simp] theorem nOf_wordXKK : nOf (wordXKK op x kk) = kk.extractLsb' 0 4 := by
  apply BitVec.eq_of_getLsbD_eq; intro k hk
  rw [nOf, field_getLsbD _ _ _ _ hk, wordXKK_getLsbD, if_pos (by omega), BitVec.getLsbD_extractLsb',
    decide_eq_true hk, Bool.true_and]

@[simp] theorem yOf_wordXKK : yOf (wordXKK op x kk) = kk.extractLsb' 4 4 := by
  apply BitVec.eq_of_getLsbD_eq; intro k hk
  rw [yOf, field_getLsbD _ _ _ _ hk, wordXKK_getLsbD, if_pos (by omega), BitVec.getLsbD_extractLsb',
    decide_eq_true hk, Bool.true_and]

end

/-! ## `op ++ x ++ y ++ n` -/

section
variable (op : BitVec 4) (x y : RegIx) (n : Nibble)

theorem low_append : (y ++ n : Byte).extractLsb' 0 4 = n := by
  apply BitVec.eq_of_getLsbD_eq; intro k hk
  rw [BitVec.getLsbD_extractLsb', decide_eq_true hk, Bool.true_and, Nat.zero_add]
  exact BitVec.getLsbD_append.trans (if_pos hk)

theorem high_append : (y ++ n : Byte).extractLsb' 4 4 = y := by
  apply BitVec.eq_of_getLsbD_eq; intro k hk
  rw [BitVec.getLsbD_extractLsb', decide_eq_true hk, Bool.true_and]
  refine BitVec.getLsbD_append.trans ((if_neg (by omega)).trans ?_)
  rw [Nat.add_sub_cancel_left]

@[simp] theorem opOf_wordXYN : opOf (wordXYN op x y n) = op := by rw [wordXYN_eq, opOf_wordXKK]
@[simp] theorem xOf_wordXYN : xOf (wordXYN op x y n) = x := by rw [wordXYN_eq, xOf_wordXKK]
@[simp] theorem yOf_wordXYN : yOf (wordXYN op x y n) = y := by rw [wordXYN_eq, yOf_wordXKK, high_append]
@[simp] theorem nOf_wordXYN : nOf (wordXYN op x y n) = n := by rw [wordXYN_eq, nOf_wordXKK, low_append]
theorem kkOf_wordXYN : kkOf (wordXYN op x y n) = y ++ n := by rw [wordXYN_eq, kkOf_wordXKK]

end

/-! ## A word is its fields -/

theorem wordNNN_fields (w : Word) : wordNNN (opOf w) (nnnOf w) = w := by
  apply BitVec.eq_of_getLsbD_eq; intro k hk
  rw [wordNNN_getLsbD]
  split
  · next h => rw [nnnOf, field_getLsbD _ _ _ _ h, Nat.zero_add]
  · rw [opOf, field_getLsbD _ _ _ _ (by omega)]
    congr 1; omega

theorem wordXKK_fields (w : Word) : wordXKK (opOf w) (xOf w) (kkOf w) = w := by
  apply BitVec.eq_of_getLsbD_eq; intro k hk
  rw [wordXKK_getLsbD]
  split
  · next h => rw [kkOf, field_getLsbD _ _ _ _ h, Nat.zero_add]
  · split
    · next h => rw [xOf, field_getLsbD _ _ _ _ h]; congr 1; omega
    · rw [opOf, field_getLsbD _ _ _ _ (by omega)]; congr 1; omega

theorem y_n_fields (w : Word) : (yOf w ++ nOf w : Byte) = kkOf w := by
  apply BitVec.eq_of_getLsbD_eq; intro k hk
  refine BitVec.getLsbD_append.trans ?_
  rw [kkOf, field_getLsbD _ _ _ _ hk]
  split
  · next h => rw [nOf, field_getLsbD _ _ _ _ h]
  · rw [yOf, field_getLsbD _ _ _ _ (by omega)]; congr 1; omega

theorem wordXYN_fields (w : Word) : wordXYN (opOf w) (xOf w) (yOf w) (nOf w) = w := by
  rw [wordXYN_eq, y_n_fields, wordXKK_fields]

/-! ## A word whose first nibble is known -/

theorem wordNNN_of_op {w : Word} {op : BitVec 4} (h : opOf w = op) : wordNNN op (nnnOf w) = w := by
  rw [← h, wordNNN_fields]

theorem wordXKK_of_op {w : Word} {op : BitVec 4} (h : opOf w = op) : wordXKK op (xOf w) (kkOf w) = w := by
  rw [← h, wordXKK_fields]

theorem wordXYN_of_op {w : Word} {op : BitVec 4} (h : opOf w = op) : wordXYN op (xOf w) (yOf w) (nOf w) = w := by
  rw [← h, wordXYN_fields]

end Sys2Proof
end

