-- ==== Sys2Proof/Laws/State.lean ====
section
/-!
SUPPORT. The small lemmas of State: one for each field and each update, so that no proof unfolds a record update, and
what the accessors read after an update.
-/

namespace Sys2Proof.Machine.State

variable (s : State)

/-! ## `setV` -/

@[simp] theorem setV_mem (r : RegIx) (b : Byte) : (s.setV r b).mem = s.mem := rfl
@[simp] theorem setV_v (r : RegIx) (b : Byte) : (s.setV r b).v = s.v.set r.toNat b := rfl
@[simp] theorem setV_i (r : RegIx) (b : Byte) : (s.setV r b).i = s.i := rfl
@[simp] theorem setV_pc (r : RegIx) (b : Byte) : (s.setV r b).pc = s.pc := rfl
@[simp] theorem setV_sp (r : RegIx) (b : Byte) : (s.setV r b).sp = s.sp := rfl
@[simp] theorem setV_rpl (r : RegIx) (b : Byte) : (s.setV r b).rpl = s.rpl := rfl
@[simp] theorem setV_dt (r : RegIx) (b : Byte) : (s.setV r b).dt = s.dt := rfl
@[simp] theorem setV_st (r : RegIx) (b : Byte) : (s.setV r b).st = s.st := rfl
@[simp] theorem setV_mode (r : RegIx) (b : Byte) : (s.setV r b).mode = s.mode := rfl
@[simp] theorem setV_fb (r : RegIx) (b : Byte) : (s.setV r b).fb = s.fb := rfl
@[simp] theorem setV_dirty (r : RegIx) (b : Byte) : (s.setV r b).dirty = s.dirty := rfl
@[simp] theorem setV_run (r : RegIx) (b : Byte) : (s.setV r b).run = s.run := rfl
@[simp] theorem setV_keyInputs (r : RegIx) (b : Byte) : (s.setV r b).keyInputs = s.keyInputs := rfl
@[simp] theorem setV_rndInputs (r : RegIx) (b : Byte) : (s.setV r b).rndInputs = s.rndInputs := rfl
@[simp] theorem setV_draws (r : RegIx) (b : Byte) : (s.setV r b).draws = s.draws := rfl

/-! ## `setRpl` -/

@[simp] theorem setRpl_mem (k : RegIx) (b : Byte) : (s.setRpl k b).mem = s.mem := rfl
@[simp] theorem setRpl_v (k : RegIx) (b : Byte) : (s.setRpl k b).v = s.v := rfl
@[simp] theorem setRpl_i (k : RegIx) (b : Byte) : (s.setRpl k b).i = s.i := rfl
@[simp] theorem setRpl_pc (k : RegIx) (b : Byte) : (s.setRpl k b).pc = s.pc := rfl
@[simp] theorem setRpl_sp (k : RegIx) (b : Byte) : (s.setRpl k b).sp = s.sp := rfl
@[simp] theorem setRpl_rpl (k : RegIx) (b : Byte) : (s.setRpl k b).rpl = s.rpl.set k.toNat b := rfl
@[simp] theorem setRpl_dt (k : RegIx) (b : Byte) : (s.setRpl k b).dt = s.dt := rfl
@[simp] theorem setRpl_st (k : RegIx) (b : Byte) : (s.setRpl k b).st = s.st := rfl
@[simp] theorem setRpl_mode (k : RegIx) (b : Byte) : (s.setRpl k b).mode = s.mode := rfl
@[simp] theorem setRpl_fb (k : RegIx) (b : Byte) : (s.setRpl k b).fb = s.fb := rfl
@[simp] theorem setRpl_dirty (k : RegIx) (b : Byte) : (s.setRpl k b).dirty = s.dirty := rfl
@[simp] theorem setRpl_run (k : RegIx) (b : Byte) : (s.setRpl k b).run = s.run := rfl
@[simp] theorem setRpl_keyInputs (k : RegIx) (b : Byte) : (s.setRpl k b).keyInputs = s.keyInputs := rfl
@[simp] theorem setRpl_rndInputs (k : RegIx) (b : Byte) : (s.setRpl k b).rndInputs = s.rndInputs := rfl
@[simp] theorem setRpl_draws (k : RegIx) (b : Byte) : (s.setRpl k b).draws = s.draws := rfl

/-! ## `setI` -/

@[simp] theorem setI_mem (a : Word) : (s.setI a).mem = s.mem := rfl
@[simp] theorem setI_v (a : Word) : (s.setI a).v = s.v := rfl
@[simp] theorem setI_i (a : Word) : (s.setI a).i = a := rfl
@[simp] theorem setI_pc (a : Word) : (s.setI a).pc = s.pc := rfl
@[simp] theorem setI_sp (a : Word) : (s.setI a).sp = s.sp := rfl
@[simp] theorem setI_rpl (a : Word) : (s.setI a).rpl = s.rpl := rfl
@[simp] theorem setI_dt (a : Word) : (s.setI a).dt = s.dt := rfl
@[simp] theorem setI_st (a : Word) : (s.setI a).st = s.st := rfl
@[simp] theorem setI_mode (a : Word) : (s.setI a).mode = s.mode := rfl
@[simp] theorem setI_fb (a : Word) : (s.setI a).fb = s.fb := rfl
@[simp] theorem setI_dirty (a : Word) : (s.setI a).dirty = s.dirty := rfl
@[simp] theorem setI_run (a : Word) : (s.setI a).run = s.run := rfl
@[simp] theorem setI_keyInputs (a : Word) : (s.setI a).keyInputs = s.keyInputs := rfl
@[simp] theorem setI_rndInputs (a : Word) : (s.setI a).rndInputs = s.rndInputs := rfl
@[simp] theorem setI_draws (a : Word) : (s.setI a).draws = s.draws := rfl

/-! ## `setPc` -/

@[simp] theorem setPc_mem (a : Word) : (s.setPc a).mem = s.mem := rfl
@[simp] theorem setPc_v (a : Word) : (s.setPc a).v = s.v := rfl
@[simp] theorem setPc_i (a : Word) : (s.setPc a).i = s.i := rfl
@[simp] theorem setPc_pc (a : Word) : (s.setPc a).pc = a := rfl
@[simp] theorem setPc_sp (a : Word) : (s.setPc a).sp = s.sp := rfl
@[simp] theorem setPc_rpl (a : Word) : (s.setPc a).rpl = s.rpl := rfl
@[simp] theorem setPc_dt (a : Word) : (s.setPc a).dt = s.dt := rfl
@[simp] theorem setPc_st (a : Word) : (s.setPc a).st = s.st := rfl
@[simp] theorem setPc_mode (a : Word) : (s.setPc a).mode = s.mode := rfl
@[simp] theorem setPc_fb (a : Word) : (s.setPc a).fb = s.fb := rfl
@[simp] theorem setPc_dirty (a : Word) : (s.setPc a).dirty = s.dirty := rfl
@[simp] theorem setPc_run (a : Word) : (s.setPc a).run = s.run := rfl
@[simp] theorem setPc_keyInputs (a : Word) : (s.setPc a).keyInputs = s.keyInputs := rfl
@[simp] theorem setPc_rndInputs (a : Word) : (s.setPc a).rndInputs = s.rndInputs := rfl
@[simp] theorem setPc_draws (a : Word) : (s.setPc a).draws = s.draws := rfl

/-! ## `setSp` -/

@[simp] theorem setSp_mem (b : Byte) : (s.setSp b).mem = s.mem := rfl
@[simp] theorem setSp_v (b : Byte) : (s.setSp b).v = s.v := rfl
@[simp] theorem setSp_i (b : Byte) : (s.setSp b).i = s.i := rfl
@[simp] theorem setSp_pc (b : Byte) : (s.setSp b).pc = s.pc := rfl
@[simp] theorem setSp_sp (b : Byte) : (s.setSp b).sp = b := rfl
@[simp] theorem setSp_rpl (b : Byte) : (s.setSp b).rpl = s.rpl := rfl
@[simp] theorem setSp_dt (b : Byte) : (s.setSp b).dt = s.dt := rfl
@[simp] theorem setSp_st (b : Byte) : (s.setSp b).st = s.st := rfl
@[simp] theorem setSp_mode (b : Byte) : (s.setSp b).mode = s.mode := rfl
@[simp] theorem setSp_fb (b : Byte) : (s.setSp b).fb = s.fb := rfl
@[simp] theorem setSp_dirty (b : Byte) : (s.setSp b).dirty = s.dirty := rfl
@[simp] theorem setSp_run (b : Byte) : (s.setSp b).run = s.run := rfl
@[simp] theorem setSp_keyInputs (b : Byte) : (s.setSp b).keyInputs = s.keyInputs := rfl
@[simp] theorem setSp_rndInputs (b : Byte) : (s.setSp b).rndInputs = s.rndInputs := rfl
@[simp] theorem setSp_draws (b : Byte) : (s.setSp b).draws = s.draws := rfl

/-! ## `setDt` -/

@[simp] theorem setDt_mem (b : Byte) : (s.setDt b).mem = s.mem := rfl
@[simp] theorem setDt_v (b : Byte) : (s.setDt b).v = s.v := rfl
@[simp] theorem setDt_i (b : Byte) : (s.setDt b).i = s.i := rfl
@[simp] theorem setDt_pc (b : Byte) : (s.setDt b).pc = s.pc := rfl
@[simp] theorem setDt_sp (b : Byte) : (s.setDt b).sp = s.sp := rfl
@[simp] theorem setDt_rpl (b : Byte) : (s.setDt b).rpl = s.rpl := rfl
@[simp] theorem setDt_dt (b : Byte) : (s.setDt b).dt = b := rfl
@[simp] theorem setDt_st (b : Byte) : (s.setDt b).st = s.st := rfl
@[simp] theorem setDt_mode (b : Byte) : (s.setDt b).mode = s.mode := rfl
@[simp] theorem setDt_fb (b : Byte) : (s.setDt b).fb = s.fb := rfl
@[simp] theorem setDt_dirty (b : Byte) : (s.setDt b).dirty = s.dirty := rfl
@[simp] theorem setDt_run (b : Byte) : (s.setDt b).run = s.run := rfl
@[simp] theorem setDt_keyInputs (b : Byte) : (s.setDt b).keyInputs = s.keyInputs := rfl
@[simp] theorem setDt_rndInputs (b : Byte) : (s.setDt b).rndInputs = s.rndInputs := rfl
@[simp] theorem setDt_draws (b : Byte) : (s.setDt b).draws = s.draws := rfl

/-! ## `setSt` -/

@[simp] theorem setSt_mem (b : Byte) : (s.setSt b).mem = s.mem := rfl
@[simp] theorem setSt_v (b : Byte) : (s.setSt b).v = s.v := rfl
@[simp] theorem setSt_i (b : Byte) : (s.setSt b).i = s.i := rfl
@[simp] theorem setSt_pc (b : Byte) : (s.setSt b).pc = s.pc := rfl
@[simp] theorem setSt_sp (b : Byte) : (s.setSt b).sp = s.sp := rfl
@[simp] theorem setSt_rpl (b : Byte) : (s.setSt b).rpl = s.rpl := rfl
@[simp] theorem setSt_dt (b : Byte) : (s.setSt b).dt = s.dt := rfl
@[simp] theorem setSt_st (b : Byte) : (s.setSt b).st = b := rfl
@[simp] theorem setSt_mode (b : Byte) : (s.setSt b).mode = s.mode := rfl
@[simp] theorem setSt_fb (b : Byte) : (s.setSt b).fb = s.fb := rfl
@[simp] theorem setSt_dirty (b : Byte) : (s.setSt b).dirty = s.dirty := rfl
@[simp] theorem setSt_run (b : Byte) : (s.setSt b).run = s.run := rfl
@[simp] theorem setSt_keyInputs (b : Byte) : (s.setSt b).keyInputs = s.keyInputs := rfl
@[simp] theorem setSt_rndInputs (b : Byte) : (s.setSt b).rndInputs = s.rndInputs := rfl
@[simp] theorem setSt_draws (b : Byte) : (s.setSt b).draws = s.draws := rfl

/-! ## `setRun` -/

@[simp] theorem setRun_mem (r : Run) : (s.setRun r).mem = s.mem := rfl
@[simp] theorem setRun_v (r : Run) : (s.setRun r).v = s.v := rfl
@[simp] theorem setRun_i (r : Run) : (s.setRun r).i = s.i := rfl
@[simp] theorem setRun_pc (r : Run) : (s.setRun r).pc = s.pc := rfl
@[simp] theorem setRun_sp (r : Run) : (s.setRun r).sp = s.sp := rfl
@[simp] theorem setRun_rpl (r : Run) : (s.setRun r).rpl = s.rpl := rfl
@[simp] theorem setRun_dt (r : Run) : (s.setRun r).dt = s.dt := rfl
@[simp] theorem setRun_st (r : Run) : (s.setRun r).st = s.st := rfl
@[simp] theorem setRun_mode (r : Run) : (s.setRun r).mode = s.mode := rfl
@[simp] theorem setRun_fb (r : Run) : (s.setRun r).fb = s.fb := rfl
@[simp] theorem setRun_dirty (r : Run) : (s.setRun r).dirty = s.dirty := rfl
@[simp] theorem setRun_run (r : Run) : (s.setRun r).run = r := rfl
@[simp] theorem setRun_keyInputs (r : Run) : (s.setRun r).keyInputs = s.keyInputs := rfl
@[simp] theorem setRun_rndInputs (r : Run) : (s.setRun r).rndInputs = s.rndInputs := rfl
@[simp] theorem setRun_draws (r : Run) : (s.setRun r).draws = s.draws := rfl

/-! ## `memWrite` -/

@[simp] theorem memWrite_mem (a : Word) (b : Byte) : (s.memWrite a b).mem = s.mem.write (busAddr a) b := rfl
@[simp] theorem memWrite_v (a : Word) (b : Byte) : (s.memWrite a b).v = s.v := rfl
@[simp] theorem memWrite_i (a : Word) (b : Byte) : (s.memWrite a b).i = s.i := rfl
@[simp] theorem memWrite_pc (a : Word) (b : Byte) : (s.memWrite a b).pc = s.pc := rfl
@[simp] theorem memWrite_sp (a : Word) (b : Byte) : (s.memWrite a b).sp = s.sp := rfl
@[simp] theorem memWrite_rpl (a : Word) (b : Byte) : (s.memWrite a b).rpl = s.rpl := rfl
@[simp] theorem memWrite_dt (a : Word) (b : Byte) : (s.memWrite a b).dt = s.dt := rfl
@[simp] theorem memWrite_st (a : Word) (b : Byte) : (s.memWrite a b).st = s.st := rfl
@[simp] theorem memWrite_mode (a : Word) (b : Byte) : (s.memWrite a b).mode = s.mode := rfl
@[simp] theorem memWrite_fb (a : Word) (b : Byte) : (s.memWrite a b).fb = s.fb := rfl
@[simp] theorem memWrite_dirty (a : Word) (b : Byte) : (s.memWrite a b).dirty = s.dirty := rfl
@[simp] theorem memWrite_run (a : Word) (b : Byte) : (s.memWrite a b).run = s.run := rfl
@[simp] theorem memWrite_keyInputs (a : Word) (b : Byte) : (s.memWrite a b).keyInputs = s.keyInputs := rfl
@[simp] theorem memWrite_rndInputs (a : Word) (b : Byte) : (s.memWrite a b).rndInputs = s.rndInputs := rfl
@[simp] theorem memWrite_draws (a : Word) (b : Byte) : (s.memWrite a b).draws = s.draws := rfl

/-! ## `redraw` -/

@[simp] theorem redraw_mem (g : Grid) : (s.redraw g).mem = s.mem := rfl
@[simp] theorem redraw_v (g : Grid) : (s.redraw g).v = s.v := rfl
@[simp] theorem redraw_i (g : Grid) : (s.redraw g).i = s.i := rfl
@[simp] theorem redraw_pc (g : Grid) : (s.redraw g).pc = s.pc := rfl
@[simp] theorem redraw_sp (g : Grid) : (s.redraw g).sp = s.sp := rfl
@[simp] theorem redraw_rpl (g : Grid) : (s.redraw g).rpl = s.rpl := rfl
@[simp] theorem redraw_dt (g : Grid) : (s.redraw g).dt = s.dt := rfl
@[simp] theorem redraw_st (g : Grid) : (s.redraw g).st = s.st := rfl
@[simp] theorem redraw_mode (g : Grid) : (s.redraw g).mode = s.mode := rfl
@[simp] theorem redraw_fb (g : Grid) : (s.redraw g).fb = g := rfl
@[simp] theorem redraw_dirty (g : Grid) : (s.redraw g).dirty = s.dirty + 1 := rfl
@[simp] theorem redraw_run (g : Grid) : (s.redraw g).run = s.run := rfl
@[simp] theorem redraw_keyInputs (g : Grid) : (s.redraw g).keyInputs = s.keyInputs := rfl
@[simp] theorem redraw_rndInputs (g : Grid) : (s.redraw g).rndInputs = s.rndInputs := rfl
@[simp] theorem redraw_draws (g : Grid) : (s.redraw g).draws = s.draws := rfl

/-! ## Taking an input changes the inputs alone -/

@[simp] theorem takeRandom_mem : s.takeRandom.mem = s.mem := by unfold takeRandom; split <;> rfl
@[simp] theorem takeRandom_v : s.takeRandom.v = s.v := by unfold takeRandom; split <;> rfl
@[simp] theorem takeRandom_i : s.takeRandom.i = s.i := by unfold takeRandom; split <;> rfl
@[simp] theorem takeRandom_pc : s.takeRandom.pc = s.pc := by unfold takeRandom; split <;> rfl
@[simp] theorem takeRandom_sp : s.takeRandom.sp = s.sp := by unfold takeRandom; split <;> rfl
@[simp] theorem takeRandom_rpl : s.takeRandom.rpl = s.rpl := by unfold takeRandom; split <;> rfl
@[simp] theorem takeRandom_dt : s.takeRandom.dt = s.dt := by unfold takeRandom; split <;> rfl
@[simp] theorem takeRandom_st : s.takeRandom.st = s.st := by unfold takeRandom; split <;> rfl
@[simp] theorem takeRandom_mode : s.takeRandom.mode = s.mode := by unfold takeRandom; split <;> rfl
@[simp] theorem takeRandom_fb : s.takeRandom.fb = s.fb := by unfold takeRandom; split <;> rfl
@[simp] theorem takeRandom_dirty : s.takeRandom.dirty = s.dirty := by unfold takeRandom; split <;> rfl
@[simp] theorem takeRandom_run : s.takeRandom.run = s.run := by unfold takeRandom; split <;> rfl
@[simp] theorem takeRandom_keyInputs : s.takeRandom.keyInputs = s.keyInputs := by unfold takeRandom; split <;> rfl

@[simp] theorem takeKeys_mem : s.takeKeys.mem = s.mem := by unfold takeKeys; split <;> rfl
@[simp] theorem takeKeys_v : s.takeKeys.v = s.v := by unfold takeKeys; split <;> rfl
@[simp] theorem takeKeys_i : s.takeKeys.i = s.i := by unfold takeKeys; split <;> rfl
@[simp] theorem takeKeys_pc : s.takeKeys.pc = s.pc := by unfold takeKeys; split <;> rfl
@[simp] theorem takeKeys_sp : s.takeKeys.sp = s.sp := by unfold takeKeys; split <;> rfl
@[simp] theorem takeKeys_rpl : s.takeKeys.rpl = s.rpl := by unfold takeKeys; split <;> rfl
@[simp] theorem takeKeys_dt : s.takeKeys.dt = s.dt := by unfold takeKeys; split <;> rfl
@[simp] theorem takeKeys_st : s.takeKeys.st = s.st := by unfold takeKeys; split <;> rfl
@[simp] theorem takeKeys_mode : s.takeKeys.mode = s.mode := by unfold takeKeys; split <;> rfl
@[simp] theorem takeKeys_fb : s.takeKeys.fb = s.fb := by unfold takeKeys; split <;> rfl
@[simp] theorem takeKeys_dirty : s.takeKeys.dirty = s.dirty := by unfold takeKeys; split <;> rfl
@[simp] theorem takeKeys_run : s.takeKeys.run = s.run := by unfold takeKeys; split <;> rfl
@[simp] theorem takeKeys_rndInputs : s.takeKeys.rndInputs = s.rndInputs := by unfold takeKeys; split <;> rfl

/-! ## Accessors after updates -/

@[simp] theorem getV_setV (r q : RegIx) (b : Byte) : (s.setV r b).getV q = if q = r then b else s.getV q := by
  simp only [getV, setV, Vector.getElem_set, ← BitVec.toNat_inj, eq_comm]

@[simp] theorem getRpl_setRpl (r q : RegIx) (b : Byte) :
    (s.setRpl r b).getRpl q = if q = r then b else s.getRpl q := by
  simp only [getRpl, setRpl, Vector.getElem_set, ← BitVec.toNat_inj, eq_comm]

@[simp] theorem getRpl_setV (r : RegIx) (b : Byte) (q : RegIx) : (s.setV r b).getRpl q = s.getRpl q := rfl
@[simp] theorem memRead_setV (r : RegIx) (b : Byte) (w : Word) : (s.setV r b).memRead w = s.memRead w := rfl
@[simp] theorem getV_setRpl (k : RegIx) (b : Byte) (q : RegIx) : (s.setRpl k b).getV q = s.getV q := rfl
@[simp] theorem memRead_setRpl (k : RegIx) (b : Byte) (w : Word) : (s.setRpl k b).memRead w = s.memRead w := rfl
@[simp] theorem getV_setI (a : Word) (q : RegIx) : (s.setI a).getV q = s.getV q := rfl
@[simp] theorem getRpl_setI (a : Word) (q : RegIx) : (s.setI a).getRpl q = s.getRpl q := rfl
@[simp] theorem memRead_setI (a : Word) (w : Word) : (s.setI a).memRead w = s.memRead w := rfl
@[simp] theorem getV_setPc (a : Word) (q : RegIx) : (s.setPc a).getV q = s.getV q := rfl
@[simp] theorem getRpl_setPc (a : Word) (q : RegIx) : (s.setPc a).getRpl q = s.getRpl q := rfl
@[simp] theorem memRead_setPc (a : Word) (w : Word) : (s.setPc a).memRead w = s.memRead w := rfl
@[simp] theorem getV_setSp (b : Byte) (q : RegIx) : (s.setSp b).getV q = s.getV q := rfl
@[simp] theorem getRpl_setSp (b : Byte) (q : RegIx) : (s.setSp b).getRpl q = s.getRpl q := rfl
@[simp] theorem memRead_setSp (b : Byte) (w : Word) : (s.setSp b).memRead w = s.memRead w := rfl
@[simp] theorem getV_setDt (b : Byte) (q : RegIx) : (s.setDt b).getV q = s.getV q := rfl
@[simp] theorem getRpl_setDt (b : Byte) (q : RegIx) : (s.setDt b).getRpl q = s.getRpl q := rfl
@[simp] theorem memRead_setDt (b : Byte) (w : Word) : (s.setDt b).memRead w = s.memRead w := rfl
@[simp] theorem getV_setSt (b : Byte) (q : RegIx) : (s.setSt b).getV q = s.getV q := rfl
@[simp] theorem getRpl_setSt (b : Byte) (q : RegIx) : (s.setSt b).getRpl q = s.getRpl q := rfl
@[simp] theorem memRead_setSt (b : Byte) (w : Word) : (s.setSt b).memRead w = s.memRead w := rfl
@[simp] theorem getV_setRun (r : Run) (q : RegIx) : (s.setRun r).getV q = s.getV q := rfl
@[simp] theorem getRpl_setRun (r : Run) (q : RegIx) : (s.setRun r).getRpl q = s.getRpl q := rfl
@[simp] theorem memRead_setRun (r : Run) (w : Word) : (s.setRun r).memRead w = s.memRead w := rfl
@[simp] theorem getV_memWrite (a : Word) (b : Byte) (q : RegIx) : (s.memWrite a b).getV q = s.getV q := rfl
@[simp] theorem getRpl_memWrite (a : Word) (b : Byte) (q : RegIx) : (s.memWrite a b).getRpl q = s.getRpl q := rfl
@[simp] theorem getV_redraw (g : Grid) (q : RegIx) : (s.redraw g).getV q = s.getV q := rfl
@[simp] theorem getRpl_redraw (g : Grid) (q : RegIx) : (s.redraw g).getRpl q = s.getRpl q := rfl
@[simp] theorem memRead_redraw (g : Grid) (w : Word) : (s.redraw g).memRead w = s.memRead w := rfl
@[simp] theorem getV_takeRandom (q : RegIx) : s.takeRandom.getV q = s.getV q := by simp [getV]
@[simp] theorem getRpl_takeRandom (q : RegIx) : s.takeRandom.getRpl q = s.getRpl q := by simp [getRpl]
@[simp] theorem memRead_takeRandom (w : Word) : s.takeRandom.memRead w = s.memRead w := by simp [memRead]
@[simp] theorem getV_takeKeys (q : RegIx) : s.takeKeys.getV q = s.getV q := by simp [getV]
@[simp] theorem getRpl_takeKeys (q : RegIx) : s.takeKeys.getRpl q = s.getRpl q := by simp [getRpl]
@[simp] theorem memRead_takeKeys (w : Word) : s.takeKeys.memRead w = s.memRead w := by simp [memRead]

/-! ## Two states with the same registers have the same register file -/

theorem v_ext {s t : State} (h : ∀ r, t.getV r = s.getV r) : t.v = s.v := by
  apply Vector.ext
  intro k hk
  have h' := h (BitVec.ofNat 4 k)
  have e : (BitVec.ofNat 4 k).toNat = k := by simp; omega
  simpa only [getV, e] using h'

theorem rpl_ext {s t : State} (h : ∀ r, t.getRpl r = s.getRpl r) : t.rpl = s.rpl := by
  apply Vector.ext
  intro k hk
  have h' := h (BitVec.ofNat 4 k)
  have e : (BitVec.ofNat 4 k).toNat = k := by simp; omega
  simpa only [getRpl, e] using h'

end Sys2Proof.Machine.State
end

