-- ==== Sys2Proof/Laws/Framebuffer.lean ====
section
/-!
SUPPORT. The pixel grid: what each primitive of the display leaves at a pixel, and that it keeps the grid's shape.
-/

namespace Sys2Proof.Machine

/-! ## Shape and pixels -/

theorem Grid.pixel_row {g : Grid} {y : Nat} (hy : y < g.length) (x : Nat) : g.pixel x y = g[y].getD x false := by
  unfold Grid.pixel
  rw [List.getD_eq_getElem g [] hy]

theorem Grid.pixel_below {g : Grid} {y : Nat} (hy : g.length ≤ y) (x : Nat) : g.pixel x y = false := by
  unfold Grid.pixel
  rw [List.getD_eq_default g [] hy]
  rfl

theorem Grid.shaped_row {w h : Nat} {g : Grid} (hg : g.shaped w h) {y : Nat} (hy : y < g.length) :
    g[y].length = w := hg.2 _ (List.getElem_mem hy)

/-- Outside the grid there is no lit pixel. -/
theorem Grid.pixel_outside {w h : Nat} {g : Grid} (hg : g.shaped w h) {x y : Nat} (o : ¬ (x < w ∧ y < h)) :
    g.pixel x y = false := by
  by_cases hy : y < g.length
  · have hx : ¬ x < w := fun hx => o ⟨hx, hg.1 ▸ hy⟩
    rw [Grid.pixel_row hy, List.getD_eq_default _ _ (by rw [Grid.shaped_row hg hy]; omega)]
  · exact Grid.pixel_below (by omega) x

theorem blankRow_length (w : Nat) : (blankRow w).length = w := by simp [blankRow]

@[simp] theorem blankRow_getD (w x : Nat) : (blankRow w).getD x false = false := by
  simp only [blankRow, List.getD_eq_getElem?_getD, List.getElem?_replicate]
  split <;> rfl

theorem Grid.blank_shaped (w h : Nat) : (Grid.blank w h).shaped w h := by
  refine ⟨by simp [Grid.blank], fun row hr => ?_⟩
  rw [List.eq_of_mem_replicate hr, blankRow_length]

@[simp] theorem Grid.blank_pixel (w h x y : Nat) : (Grid.blank w h).pixel x y = false := by
  by_cases hy : y < (Grid.blank w h).length
  · rw [Grid.pixel_row hy]
    simp only [Grid.blank, List.getElem_replicate, blankRow_getD]
  · exact Grid.pixel_below (by omega) x

/-! ## Writing one pixel -/

theorem Grid.setPixel_shaped {w h : Nat} {g : Grid} (hg : g.shaped w h) (x y : Nat) (b : Bool) :
    (g.setPixel x y b).shaped w h := by
  refine ⟨by simp [Grid.setPixel, hg.1], fun row hr => ?_⟩
  obtain ⟨k, hk, rfl⟩ := List.mem_iff_getElem.1 hr
  have hk' : k < g.length := by simpa [Grid.setPixel] using hk
  have hrow := Grid.shaped_row hg hk'
  simp only [Grid.setPixel, List.getElem_modify]
  split <;> simp [hrow]

theorem Grid.pixel_setPixel {w h : Nat} {g : Grid} (hg : g.shaped w h) {x y : Nat} (hx : x < w) (hy : y < h)
    (b : Bool) (u v : Nat) : (g.setPixel x y b).pixel u v = if u = x ∧ v = y then b else g.pixel u v := by
  have hl : (g.setPixel x y b).length = g.length := by simp [Grid.setPixel]
  by_cases hv : v < g.length
  · rw [Grid.pixel_row (hl ▸ hv), Grid.pixel_row hv]
    have hrow := Grid.shaped_row hg hv
    simp only [Grid.setPixel, List.getElem_modify]
    by_cases e : y = v
    · subst e
      simp only [if_true, and_true, List.getD_eq_getElem?_getD, List.getElem?_set]
      by_cases eu : x = u
      · subst eu
        simp [hrow, hx]
      · simp [eu, Ne.symm eu]
    · simp [e, Ne.symm e]
  · have hne : ¬ (u = x ∧ v = y) := fun h => hv (by rw [h.2, hg.1]; exact hy)
    rw [if_neg hne, Grid.pixel_below (by omega), Grid.pixel_below (by omega)]

/-! ## Scrolling (R173 to R175) -/

theorem Grid.scrolledDown_shaped {w h n : Nat} {g : Grid} (hg : g.shaped w h) (hn : n ≤ h) :
    (g.scrolledDown w n).shaped w h := by
  refine ⟨by simp [Grid.scrolledDown, hg.1, hn], fun row hr => ?_⟩
  rcases List.mem_append.1 hr with hr | hr
  · rw [List.eq_of_mem_replicate hr, blankRow_length]
  · exact hg.2 _ (List.mem_of_mem_take hr)

/-- A pixel after a scroll down by `n`: dark in the top `n` rows, below them the pixel `n` rows up. -/
theorem Grid.pixel_scrolledDown {w h n : Nat} {g : Grid} (hg : g.shaped w h) (x : Nat) {y : Nat} (hy : y < h) :
    (g.scrolledDown w n).pixel x y = if y < n then false else g.pixel x (y - n) := by
  have hl : y < (g.scrolledDown w n).length := by simp [Grid.scrolledDown, hg.1]; omega
  rw [Grid.pixel_row hl]
  simp only [Grid.scrolledDown, List.getElem_append, List.length_replicate]
  split
  · simp only [List.getElem_replicate, blankRow_getD]
  · next hn =>
    rw [Grid.pixel_row (by rw [hg.1]; omega)]
    simp

theorem Grid.scrolledLeft_shaped {w h : Nat} {g : Grid} (hg : g.shaped w h) (hw : hScroll ≤ w) :
    g.scrolledLeft.shaped w h := by
  refine ⟨by simp [Grid.scrolledLeft, hg.1], fun row hr => ?_⟩
  obtain ⟨r, hr', rfl⟩ := List.mem_map.1 hr
  simp only [List.length_append, List.length_drop, blankRow_length, hg.2 r hr']
  omega

theorem Grid.scrolledRight_shaped {w h : Nat} {g : Grid} (hg : g.shaped w h) (hw : hScroll ≤ w) :
    g.scrolledRight.shaped w h := by
  refine ⟨by simp [Grid.scrolledRight, hg.1], fun row hr => ?_⟩
  obtain ⟨r, hr', rfl⟩ := List.mem_map.1 hr
  simp only [List.length_append, List.length_take, blankRow_length, hg.2 r hr']
  omega

/-- A pixel after a scroll left: the pixel 4 columns to its right, dark in the last 4 columns. -/
theorem Grid.pixel_scrolledLeft {w h : Nat} {g : Grid} (hg : g.shaped w h) (x : Nat) {y : Nat} (hy : y < h) :
    g.scrolledLeft.pixel x y = if x + hScroll < w then g.pixel (x + hScroll) y else false := by
  have hy' : y < g.length := hg.1 ▸ hy
  have hrow := Grid.shaped_row hg hy'
  rw [Grid.pixel_row (by simpa [Grid.scrolledLeft] using hy'), Grid.pixel_row hy']
  simp only [Grid.scrolledLeft, List.getElem_map]
  split
  · rw [List.getD_append _ _ _ _ (by rw [List.length_drop, hrow]; omega)]
    simp only [List.getD_eq_getElem?_getD, List.getElem?_drop, Nat.add_comm]
  · rw [List.getD_append_right _ _ _ _ (by rw [List.length_drop, hrow]; omega), blankRow_getD]

/-- A pixel after a scroll right: the pixel 4 columns to its left, dark in the first 4 columns. -/
theorem Grid.pixel_scrolledRight {w h : Nat} {g : Grid} (hg : g.shaped w h) {x y : Nat} (hx : x < w) (hy : y < h) :
    g.scrolledRight.pixel x y = if x < hScroll then false else g.pixel (x - hScroll) y := by
  have hy' : y < g.length := hg.1 ▸ hy
  have hrow := Grid.shaped_row hg hy'
  rw [Grid.pixel_row (by simpa [Grid.scrolledRight] using hy'), Grid.pixel_row hy']
  simp only [Grid.scrolledRight, List.getElem_map]
  split
  · rw [List.getD_append _ _ _ _ (by rw [blankRow_length]; assumption), blankRow_getD]
  · rw [List.getD_append_right _ _ _ _ (by rw [blankRow_length]; omega), blankRow_length]
    simp only [List.getD_eq_getElem?_getD]
    rw [List.getElem?_take_of_lt (by omega)]

/-! ## Compositing (R177, R178) -/

theorem composite_shaped {w h : Nat} {acc : Grid × Bool} (hg : acc.1.shaped w h) (px py : Nat) (b : Bool) :
    (composite px py b acc).1.shaped w h := Grid.setPixel_shaped hg ..

theorem compositeRow_shaped {w h : Nat} (wd sx py : Nat) (bit : Nat → Bool) {acc : Grid × Bool}
    (hg : acc.1.shaped w h) : (compositeRow w wd sx py bit acc).1.shaped w h := by
  unfold compositeRow
  exact List.foldlRecOn (motive := fun a : Grid × Bool => a.1.shaped w h) _ _ hg
    fun _ ha _ _ => composite_shaped ha ..

/-- Compositing a sprite keeps the grid's shape. -/
theorem compositeSprite_shaped {w h : Nat} (wd rows sx sy : Nat) (bit : Nat → Nat → Bool) {acc : Grid × Bool}
    (hg : acc.1.shaped w h) : (compositeSprite w h wd rows sx sy bit acc).1.shaped w h := by
  unfold compositeSprite
  exact List.foldlRecOn (motive := fun a : Grid × Bool => a.1.shaped w h) _ _ hg
    fun _ ha _ _ => compositeRow_shaped _ _ _ _ ha

/-- Columns of one sprite row never meet: the sprite is no wider than the grid. -/
theorem column_ne {w sx c k : Nat} (hc : c < k) (hk : k < w) : (sx + c) % w ≠ (sx + k) % w := by
  intro e
  have h0 : (sx + k - (sx + c)) % w = 0 := (Nat.modEq_iff_dvd' (by omega)).1 e |> Nat.mod_eq_zero_of_dvd
  have h1 : sx + k - (sx + c) = k - c := by omega
  rw [h1, Nat.mod_eq_of_lt (by omega)] at h0
  omega

/-- One sprite row toggles exactly the pixels under its lit bits, and collides exactly where one of them was lit. -/
theorem compositeRow_spec {w h wd : Nat} (hwd : wd ≤ w) (sx : Nat) {py : Nat} (hpy : py < h) (bit : Nat → Bool)
    {acc : Grid × Bool} (hg : acc.1.shaped w h) :
    (∀ u v, (compositeRow w wd sx py bit acc).1.pixel u v =
        (acc.1.pixel u v ^^ decide (v = py ∧ ∃ c, c < wd ∧ (sx + c) % w = u ∧ bit c = true))) ∧
      (compositeRow w wd sx py bit acc).2 =
        (acc.2 || decide (∃ c, c < wd ∧ bit c = true ∧ acc.1.pixel ((sx + c) % w) py = true)) := by
  induction wd with
  | zero => simp [compositeRow]
  | succ k ih =>
    obtain ⟨ihp, ihc⟩ := ih (by omega)
    have hs : compositeRow w (k + 1) sx py bit acc =
        composite ((sx + k) % w) py (bit k) (compositeRow w k sx py bit acc) := by
      simp [compositeRow, List.range_succ]
    have hfresh : (compositeRow w k sx py bit acc).1.pixel ((sx + k) % w) py = acc.1.pixel ((sx + k) % w) py := by
      rw [ihp, decide_eq_false, Bool.xor_false]
      rintro ⟨-, c, hc, e, -⟩
      exact column_ne hc (by omega) e
    have hx : (sx + k) % w < w := Nat.mod_lt _ (by omega)
    rw [hs]
    refine ⟨fun u v => ?_, ?_⟩
    · simp only [composite]
      rw [Grid.pixel_setPixel (compositeRow_shaped _ _ _ _ hg) hx hpy, hfresh, ihp]
      by_cases e : u = (sx + k) % w ∧ v = py
      · obtain ⟨rfl, rfl⟩ := e
        rw [if_pos ⟨rfl, rfl⟩]
        congr 1
        cases hb : bit k
        · symm
          rw [decide_eq_false_iff_not]
          rintro ⟨-, c, hc, e, hb'⟩
          rcases Nat.lt_succ_iff_lt_or_eq.1 hc with hc | rfl
          · exact column_ne hc (by omega) e
          · simp [hb] at hb'
        · symm
          rw [decide_eq_true_iff]
          exact ⟨rfl, k, by omega, rfl, hb⟩
      · rw [if_neg e]
        congr 1
        rw [decide_eq_decide]
        constructor
        · rintro ⟨hv, c, hc, h⟩
          exact ⟨hv, c, by omega, h⟩
        · rintro ⟨hv, c, hc, hu, hb⟩
          rcases Nat.lt_succ_iff_lt_or_eq.1 hc with hc | rfl
          · exact ⟨hv, c, hc, hu, hb⟩
          · exact absurd ⟨hu.symm, hv⟩ e
    · simp only [composite]
      rw [hfresh, ihc, Bool.or_assoc]
      congr 1
      rw [Bool.eq_iff_iff]
      simp only [Bool.or_eq_true, decide_eq_true_iff, Bool.and_eq_true]
      constructor
      · rintro (⟨c, hc, h⟩ | ⟨hp, hb⟩)
        · exact ⟨c, by omega, h⟩
        · exact ⟨k, by omega, hb, hp⟩
      · rintro ⟨c, hc, hb, hp⟩
        rcases Nat.lt_succ_iff_lt_or_eq.1 hc with hc | rfl
        · exact .inl ⟨c, hc, hb, hp⟩
        · exact .inr ⟨hp, hb⟩

/-- A sprite toggles exactly the pixels under its lit bits, and collides exactly where one of them was lit: no pixel is
composited twice, since the sprite is no larger than the grid (R178). -/
theorem compositeSprite_spec {w h wd rows : Nat} (hwd : wd ≤ w) (hrows : rows ≤ h) (sx sy : Nat)
    (bit : Nat → Nat → Bool) {acc : Grid × Bool} (hg : acc.1.shaped w h) :
    (∀ u v, (compositeSprite w h wd rows sx sy bit acc).1.pixel u v =
        (acc.1.pixel u v ^^
          decide (∃ r, r < rows ∧ v = (sy + r) % h ∧ ∃ c, c < wd ∧ (sx + c) % w = u ∧ bit r c = true))) ∧
      (compositeSprite w h wd rows sx sy bit acc).2 =
        (acc.2 || decide (∃ r, r < rows ∧ ∃ c, c < wd ∧ bit r c = true ∧
          acc.1.pixel ((sx + c) % w) ((sy + r) % h) = true)) := by
  induction rows with
  | zero => simp [compositeSprite]
  | succ k ih =>
    obtain ⟨ihp, ihc⟩ := ih (by omega)
    have hs : compositeSprite w h wd (k + 1) sx sy bit acc =
        compositeRow w wd sx ((sy + k) % h) (bit k) (compositeSprite w h wd k sx sy bit acc) := by
      simp [compositeSprite, List.range_succ]
    have hy : (sy + k) % h < h := Nat.mod_lt _ (by omega)
    have hfresh : ∀ u, (compositeSprite w h wd k sx sy bit acc).1.pixel u ((sy + k) % h) =
        acc.1.pixel u ((sy + k) % h) := by
      intro u
      rw [ihp, decide_eq_false, Bool.xor_false]
      rintro ⟨r, hr, e, -⟩
      exact column_ne hr (by omega) e.symm
    obtain ⟨hp, hc⟩ := compositeRow_spec hwd sx hy (bit k) (compositeSprite_shaped wd k sx sy bit hg)
    rw [hs]
    refine ⟨fun u v => ?_, ?_⟩
    · rw [hp]
      by_cases e : v = (sy + k) % h
      · subst e
        rw [hfresh]
        congr 1
        rw [decide_eq_decide]
        constructor
        · rintro ⟨-, c, h⟩
          exact ⟨k, by omega, rfl, c, h⟩
        · rintro ⟨r, hr, e, c, h⟩
          rcases Nat.lt_succ_iff_lt_or_eq.1 hr with hr | rfl
          · exact absurd e.symm (column_ne hr (by omega))
          · exact ⟨rfl, c, h⟩
      · rw [ihp, Bool.xor_assoc]
        congr 1
        rw [decide_eq_false (p := v = _ ∧ _) fun h => e h.1, Bool.xor_false, decide_eq_decide]
        constructor
        · rintro ⟨r, hr, h⟩
          exact ⟨r, by omega, h⟩
        · rintro ⟨r, hr, hv, h⟩
          rcases Nat.lt_succ_iff_lt_or_eq.1 hr with hr | rfl
          · exact ⟨r, hr, hv, h⟩
          · exact absurd hv e
    · rw [hc, ihc, Bool.or_assoc]
      simp only [hfresh]
      congr 1
      rw [Bool.eq_iff_iff]
      simp only [Bool.or_eq_true, decide_eq_true_iff]
      constructor
      · rintro (⟨r, hr, h⟩ | h)
        · exact ⟨r, by omega, h⟩
        · exact ⟨k, by omega, h⟩
      · rintro ⟨r, hr, h⟩
        rcases Nat.lt_succ_iff_lt_or_eq.1 hr with hr | rfl
        · exact .inl ⟨r, hr, h⟩
        · exact .inr h

end Sys2Proof.Machine
end

