-- ==== Sys2Proof/Laws/Memory.lean ====
section
/-!
SUPPORT. Memory: a read after a write, and the canonical form kept by every operation.
-/

namespace Sys2Proof.Machine

/-! ## Reading -/

theorem Memory.read_erased (m : Memory) (a b : Nat) :
    (m.erased a).read b = if b = a then Memory.unlisted else m.read b := by
  induction m with
  | nil => simp [Memory.erased, Memory.read]
  | cons c m ih =>
    unfold Memory.erased at ih ⊢
    by_cases hc : c.1 = a
    · simp only [List.filter_cons, hc, bne_self_eq_false, Bool.false_eq_true, if_false, ih, Memory.read]
      split <;> simp_all [eq_comm]
    · have hc' : (c.1 != a) = true := by simpa using hc
      simp only [List.filter_cons, hc', if_true, Memory.read, ih]
      split <;> split <;> simp_all

theorem Memory.read_inserted (m : Memory) (a b : Nat) (v : Byte) (h : ∀ c ∈ m, c.1 ≠ a) :
    (Memory.inserted a v m).read b = if b = a then v else m.read b := by
  induction m with
  | nil => simp only [Memory.inserted, Memory.read, eq_comm]
  | cons c m ih =>
    have hm := ih fun d hd => h d (List.mem_cons_of_mem _ hd)
    have hc := h c List.mem_cons_self
    unfold Memory.inserted
    split
    · simp only [Memory.read, eq_comm]
    · simp only [Memory.read, hm]
      split <;> split <;> simp_all

theorem Memory.mem_erased {m : Memory} {a : Nat} {c : Host.Cell} (h : c ∈ m.erased a) : c ∈ m ∧ c.1 ≠ a := by
  simpa [Memory.erased] using h

/-- A byte reads as the last value written to it. -/
theorem Memory.read_write (m : Memory) (a b : Nat) (v : Byte) :
    (m.write a v).read b = if b = a then v else m.read b := by
  unfold Memory.write
  split
  · next h => rw [Memory.read_erased]; simp [h]
  · rw [Memory.read_inserted _ _ _ _ fun c hc => (Memory.mem_erased hc).2, Memory.read_erased]
    split <;> rfl

@[simp] theorem Memory.read_nil (a : Nat) : Memory.read [] a = 0 := rfl

/-! ## Canonical form -/

theorem Memory.wf_nil : Memory.wf [] := by simp [Memory.wf]

theorem Memory.wf_erased {m : Memory} (h : m.wf) (a : Nat) : (m.erased a).wf :=
  ⟨h.1.filter _, fun c hc => h.2 c (Memory.mem_erased hc).1⟩

theorem Memory.mem_inserted {m : Memory} {a : Nat} {v : Byte} {c : Host.Cell}
    (h : c ∈ Memory.inserted a v m) : c = (a, v) ∨ c ∈ m := by
  induction m with
  | nil => simpa [Memory.inserted] using h
  | cons d m ih =>
    unfold Memory.inserted at h
    split at h
    · simpa using h
    · rcases List.mem_cons.1 h with h | h
      · exact .inr (by simp [h])
      · exact (ih h).imp_right (List.mem_cons_of_mem _)

theorem Memory.rising_inserted {m : Memory} {a : Nat} {v : Byte} (h : m.Pairwise fun c d => c.1 < d.1)
    (ha : ∀ c ∈ m, c.1 ≠ a) : (Memory.inserted a v m).Pairwise fun c d => c.1 < d.1 := by
  induction m with
  | nil => simp [Memory.inserted]
  | cons d m ih =>
    rw [List.pairwise_cons] at h
    unfold Memory.inserted
    split
    · next had =>
      refine List.pairwise_cons.2 ⟨fun c hc => ?_, List.pairwise_cons.2 h⟩
      rcases List.mem_cons.1 hc with rfl | hc
      · exact had
      · exact had.trans (h.1 c hc)
    · next had =>
      have hd := ha d List.mem_cons_self
      refine List.pairwise_cons.2 ⟨fun c hc => ?_, ih h.2 fun c hc => ha c (List.mem_cons_of_mem _ hc)⟩
      rcases Memory.mem_inserted hc with rfl | hc
      · show d.1 < a
        omega
      · exact h.1 c hc

/-- Storing a byte keeps the canonical form. -/
theorem Memory.wf_write {m : Memory} (h : m.wf) {a : Nat} (ha : a < memSize) (v : Byte) : (m.write a v).wf := by
  have he := Memory.wf_erased h a
  unfold Memory.write
  split
  · exact he
  · next hv =>
    refine ⟨Memory.rising_inserted he.1 fun c hc => (Memory.mem_erased hc).2, fun c hc => ?_⟩
    rcases Memory.mem_inserted hc with rfl | hc
    · exact ⟨ha, hv⟩
    · exact he.2 c hc

/-! ## The 12-bit mask (R50) -/

theorem busAddr_eq (a : Word) : busAddr a = a.toNat % 4096 := by
  unfold busAddr
  rw [BitVec.toNat_and]
  exact Nat.and_two_pow_sub_one_eq_mod a.toNat 12

theorem busAddr_lt (a : Word) : busAddr a < memSize := by
  rw [busAddr_eq]
  exact Nat.mod_lt _ (by decide)

theorem State.memRead_memWrite (s : State) (a b : Word) (v : Byte) :
    (s.memWrite a v).memRead b = if busAddr b = busAddr a then v else s.memRead b :=
  Memory.read_write ..

/-! ## `load`'s copy (R64) -/

/-- After the copy, address `b` holds the byte copied to it, or what it held. -/
theorem Memory.read_copyIn (bytes : List Byte) (m : Memory) (a b : Nat) :
    (m.copyIn a bytes).read b =
      if h : a ≤ b ∧ b < a + bytes.length then bytes[b - a]'(by omega) else m.read b := by
  induction bytes generalizing m a with
  | nil => simp [Memory.copyIn]
  | cons v bytes ih =>
    simp only [Memory.copyIn, ih, Memory.read_write, List.length_cons]
    by_cases hb : b = a
    · subst hb
      simp
    · by_cases h : a + 1 ≤ b ∧ b < a + 1 + bytes.length
      · have h2 : a ≤ b ∧ b < a + (bytes.length + 1) := by omega
        have e : b - a = (b - (a + 1)) + 1 := by omega
        simp only [h, h2, and_self, dite_true, e, List.getElem_cons_succ]
      · have h2 : ¬ (a ≤ b ∧ b < a + (bytes.length + 1)) := by omega
        rw [dif_neg h, dif_neg h2, if_neg hb]

theorem Memory.wf_copyIn {bytes : List Byte} {m : Memory} {a : Nat} (h : m.wf) (ha : a + bytes.length ≤ memSize) :
    (m.copyIn a bytes).wf := by
  induction bytes generalizing m a with
  | nil => exact h
  | cons v bytes ih =>
    simp only [List.length_cons] at ha
    exact ih (Memory.wf_write h (by omega) v) (by omega)

end Sys2Proof.Machine
end

