-- ==== Sys2Proof/Laws/Ops.lean ====
section
/-!
SUPPORT. One lemma for each shared operation, saying everything it can do: skips, flags, faults, inputs, key skips, the
register loops of the bulk transfers and the sprite's pixels. Provers cite these instead of unfolding the operation.
-/

namespace Sys2Proof.Machine

variable (s : State)

/-! ## Skips, faults, flags -/

theorem State.skipIf_eq (c : Bool) : s.skipIf c = s.setPc (if c then s.pc + 2 else s.pc) := rfl

theorem State.advancePc_eq : s.advancePc = s.setPc (s.pc + 2) := rfl

theorem State.raise_eq (f : Fault) : s.raise f = s.setRun (.faulted f) := rfl

/-- The result and the flag, the flag last (R142). -/
theorem State.getV_writeWithFlag (x r : RegIx) (b : Byte) (c : Bool) :
    (s.writeWithFlag x b c).getV r = if r = flagReg then flagByte c else if r = x then b else s.getV r := by
  simp [State.writeWithFlag]

theorem State.writeWithFlag_eq (x : RegIx) (b : Byte) (c : Bool) :
    s.writeWithFlag x b c = { s with v := (s.writeWithFlag x b c).v } := rfl

/-! ## Inputs -/

theorem State.takeRandom_eq :
    s.takeRandom = { s with rndInputs := s.takeRandom.rndInputs, draws := s.takeRandom.draws } := by
  unfold State.takeRandom
  split <;> rfl

theorem State.takeKeys_eq :
    s.takeKeys = { s with keyInputs := s.takeKeys.keyInputs, draws := s.takeKeys.draws } := by
  unfold State.takeKeys
  split <;> rfl

/-- A key operand names a key exactly up to 15 (R190). -/
theorem keyOperand_eq (b : Byte) :
    keyOperand b = if 15 < b.toNat then none else some (b.setWidth 4) := rfl

theorem keyOperand_toNat {b : Byte} (h : b.toNat < 16) : (b.setWidth 4 : KeyId).toNat = b.toNat := by
  rw [BitVec.toNat_setWidth]
  exact Nat.mod_eq_of_lt (by simpa using h)

/-- A key instruction faults, or takes a sample and skips or not (R190 to R192). -/
theorem State.keySkip_cases (want : Bool) (b : Byte) :
    (15 < b.toNat ∧ s.keySkip want b = s.raise (.unknownKey b)) ∨
    (b.toNat < 16 ∧ s.keySkip want b = s.takeKeys.skipIf (s.keyPressed (b.setWidth 4) == want)) := by
  unfold State.keySkip
  rw [keyOperand_eq]
  by_cases h : 15 < b.toNat
  · exact .inl ⟨h, by rw [if_pos h]⟩
  · exact .inr ⟨by omega, by rw [if_neg h]⟩

/-! ## The register loops (R208 to R211) -/

theorem mem_regsUpTo {x k : RegIx} : k ∈ regsUpTo x ↔ k.toNat ≤ x.toNat := by
  unfold regsUpTo
  simp only [List.mem_map, List.mem_range]
  constructor
  · rintro ⟨j, hj, rfl⟩
    have : j < 16 := by omega
    simp only [BitVec.toNat_ofNat]
    omega
  · intro h
    exact ⟨k.toNat, by omega, by simp⟩

theorem toNat_indexed (k : Nat) (hk : k < 65536) : (s.indexed k).toNat = (s.i.toNat + k) % 65536 := by
  unfold State.indexed
  rw [BitVec.toNat_add, BitVec.toNat_ofNat, Nat.mod_eq_of_lt (a := k) (by omega)]

/-- Sixteen addresses in a row are sixteen bytes of memory. -/
theorem busAddr_indexed_inj {k l : Nat} (hk : k < 16) (hl : l < 16)
    (h : busAddr (s.indexed k) = busAddr (s.indexed l)) : k = l := by
  rw [busAddr_eq, busAddr_eq, toNat_indexed s k (by omega), toNat_indexed s l (by omega)] at h
  omega

/-- The store loop leaves every byte outside its range, and everything that is not memory. -/
theorem storeLoop_frame (ks : List RegIx) :
    let t := ks.foldl (fun t k => t.memWrite (t.indexed k.toNat) (t.getV k)) s
    t = { s with mem := t.mem } ∧
      ∀ a, (∀ k ∈ ks, busAddr a ≠ busAddr (s.indexed k.toNat)) → t.memRead a = s.memRead a := by
  induction ks generalizing s with
  | nil => exact ⟨rfl, fun _ _ => rfl⟩
  | cons j ks ih =>
    obtain ⟨h1, h2⟩ := ih (s.memWrite (s.indexed j.toNat) (s.getV j))
    refine ⟨h1, fun a ha => ?_⟩
    simp only [List.foldl_cons]
    refine (h2 a fun k hk => ha k (List.mem_cons_of_mem _ hk)).trans ?_
    rw [State.memRead_memWrite, if_neg (ha j List.mem_cons_self)]

/-- The store loop leaves each register's byte at its place. -/
theorem storeLoop_value (ks : List RegIx) (k : RegIx) (hk : k ∈ ks) :
    (ks.foldl (fun t k => t.memWrite (t.indexed k.toNat) (t.getV k)) s).memRead (s.indexed k.toNat) = s.getV k := by
  induction ks generalizing s with
  | nil => cases hk
  | cons j ks ih =>
    simp only [List.foldl_cons]
    by_cases hmem : k ∈ ks
    · exact ih (s.memWrite (s.indexed j.toNat) (s.getV j)) hmem
    · have hj : k = j := (List.mem_cons.1 hk).resolve_right hmem
      subst hj
      have h2 := (storeLoop_frame (s.memWrite (s.indexed k.toNat) (s.getV k)) ks).2 (s.indexed k.toNat)
      refine (h2 fun l hl e => ?_).trans ?_
      · exact hmem (BitVec.eq_of_toNat_eq (busAddr_indexed_inj s k.isLt l.isLt e) ▸ hl)
      · rw [State.memRead_memWrite, if_pos rfl]

/-- The load loop. -/
theorem loadLoop_spec (ks : List RegIx) :
    let t := ks.foldl (fun t k => t.setV k (t.memRead (t.indexed k.toNat))) s
    t = { s with v := t.v } ∧
      ∀ r, t.getV r = if r ∈ ks then s.memRead (s.indexed r.toNat) else s.getV r := by
  induction ks generalizing s with
  | nil => exact ⟨rfl, fun r => by simp⟩
  | cons j ks ih =>
    obtain ⟨h1, h2⟩ := ih (s.setV j (s.memRead (s.indexed j.toNat)))
    refine ⟨h1, fun r => (h2 r).trans ?_⟩
    rw [State.getV_setV, State.memRead_setV]
    by_cases hr : r ∈ ks
    · simp only [hr, if_true, List.mem_cons, or_true, State.indexed, State.setV_i]
    · by_cases hj : r = j
      · subst hj
        simp [hr]
      · simp [hr, hj]

/-- The loop that stores to RPL. -/
theorem storeRplLoop_spec (ks : List RegIx) :
    let t := ks.foldl (fun t k => t.setRpl k (t.getV k)) s
    t = { s with rpl := t.rpl } ∧ ∀ r, t.getRpl r = if r ∈ ks then s.getV r else s.getRpl r := by
  induction ks generalizing s with
  | nil => exact ⟨rfl, fun r => by simp⟩
  | cons j ks ih =>
    obtain ⟨h1, h2⟩ := ih (s.setRpl j (s.getV j))
    refine ⟨h1, fun r => (h2 r).trans ?_⟩
    rw [State.getRpl_setRpl, State.getV_setRpl]
    by_cases hr : r ∈ ks
    · simp [hr]
    · by_cases hj : r = j
      · subst hj
        simp [hr]
      · simp [hr, hj]

/-- The loop that loads from RPL. -/
theorem loadRplLoop_spec (ks : List RegIx) :
    let t := ks.foldl (fun t k => t.setV k (t.getRpl k)) s
    t = { s with v := t.v } ∧ ∀ r, t.getV r = if r ∈ ks then s.getRpl r else s.getV r := by
  induction ks generalizing s with
  | nil => exact ⟨rfl, fun r => by simp⟩
  | cons j ks ih =>
    obtain ⟨h1, h2⟩ := ih (s.setV j (s.getRpl j))
    refine ⟨h1, fun r => (h2 r).trans ?_⟩
    rw [State.getV_setV, State.getRpl_setV]
    by_cases hr : r ∈ ks
    · simp [hr]
    · by_cases hj : r = j
      · subst hj
        simp [hr]
      · simp [hr, hj]

/-! ## Stack addresses (R53) -/

theorem toNat_stackAddr (k : Nat) (hk : k < 65280) : (s.stackAddr k).toNat = s.sp.toNat + k := by
  have := s.sp.isLt
  unfold State.stackAddr zextByte
  rw [BitVec.toNat_add, BitVec.toNat_setWidth, BitVec.toNat_ofNat]
  omega

theorem busAddr_stackAddr (k : Nat) (hk : k < 2) : busAddr (s.stackAddr k) = s.sp.toNat + k := by
  have := s.sp.isLt
  rw [busAddr_eq, toNat_stackAddr s k (by omega)]
  omega

/-- A return address is its two bytes (R53). -/
theorem high_low_bytes (w : Word) : (highByte w ++ lowByte w : Word) = w := by
  apply BitVec.eq_of_getLsbD_eq; intro k hk
  refine BitVec.getLsbD_append.trans ?_
  unfold highByte lowByte
  split
  · next h => rw [BitVec.getLsbD_extractLsb', decide_eq_true h, Bool.true_and, Nat.zero_add]
  · rw [BitVec.getLsbD_extractLsb', decide_eq_true (by omega), Bool.true_and]
    congr 1; omega

/-- The number of a word put together from two bytes (R52). -/
theorem toNat_append_bytes (hi lo : Byte) : (hi ++ lo : Word).toNat = 256 * hi.toNat + lo.toNat := by
  have h1 := BitVec.toNat_append hi lo
  have h2 := lo.isLt
  rw [Nat.shiftLeft_eq, ← Nat.mul_comm, ← Nat.two_pow_add_eq_or_of_lt h2] at h1
  exact h1

/-! ## Sprites (R176 to R178) -/

/-- The sprite fits the grid in either mode. -/
theorem sprite_fits (m : Mode) (wide : Bool) (n : Nibble) (h : wide = true → m = .extended) :
    spriteWidth wide ≤ m.width ∧ spriteRows wide n ≤ m.height := by
  have := n.isLt
  cases wide <;> cases m <;> simp [spriteWidth, spriteRows, Mode.width, Mode.height] at h ⊢
  all_goals omega

theorem State.wideSprite_extended {n : Nibble} (h : s.wideSprite n = true) : s.mode = .extended := by
  simp only [State.wideSprite, Bool.and_eq_true, beq_iff_eq] at h
  exact h.1

/-- What the sprite leaves on the grid, and its collision. -/
theorem State.drawn_spec (hg : s.fb.shaped s.mode.width s.mode.height) (x y : RegIx) (n : Nibble) :
    (∀ u v, (s.drawn x y n).1.pixel u v = (s.fb.pixel u v ^^
        decide (∃ r, r < spriteRows (s.wideSprite n) n ∧ v = ((s.getV y).toNat + r) % s.mode.height ∧
          ∃ c, c < spriteWidth (s.wideSprite n) ∧ ((s.getV x).toNat + c) % s.mode.width = u ∧
            s.spriteBit (s.wideSprite n) r c = true))) ∧
      (s.drawn x y n).2 = decide (∃ r, r < spriteRows (s.wideSprite n) n ∧ ∃ c, c < spriteWidth (s.wideSprite n) ∧
        s.spriteBit (s.wideSprite n) r c = true ∧
        s.fb.pixel (((s.getV x).toNat + c) % s.mode.width) (((s.getV y).toNat + r) % s.mode.height) = true) ∧
      (s.drawn x y n).1.shaped s.mode.width s.mode.height := by
  obtain ⟨h1, h2⟩ := sprite_fits s.mode (s.wideSprite n) n fun h => s.wideSprite_extended h
  obtain ⟨hp, hc⟩ := compositeSprite_spec h1 h2 (s.getV x).toNat (s.getV y).toNat (s.spriteBit (s.wideSprite n))
    (acc := (s.fb, false)) hg
  refine ⟨hp, ?_, compositeSprite_shaped _ _ _ _ _ hg⟩
  rw [← Bool.false_or (decide _)]
  exact hc

/-- The number of a sprite row is the spec's (R176). -/
theorem State.toNat_spriteRow (wide : Bool) (r : Nat) : (s.spriteRow wide r).toNat = s.rowNumber wide r := by
  unfold State.spriteRow State.rowNumber
  split
  · exact toNat_append_bytes _ _
  · unfold zextByte
    rw [BitVec.toNat_setWidth]
    exact Nat.mod_eq_of_lt (by have := (s.memRead (s.indexed r)).isLt; omega)

theorem State.spriteBit_iff (wide : Bool) (r c : Nat) :
    s.spriteBit wide r c = true ↔ s.rowNumber wide r / 2 ^ (spriteWidth wide - 1 - c) % 2 = 1 := by
  unfold State.spriteBit
  rw [← s.toNat_spriteRow, BitVec.getLsbD, Nat.testBit_eq_decide_div_mod_eq, decide_eq_true_iff]

theorem State.wideSprite_eq (n : Nibble) : s.wideSprite n = decide (s.mode = .extended ∧ n = 0) := by
  unfold State.wideSprite
  rw [Bool.eq_iff_iff]
  simp

/-- A pixel is under a lit sprite pixel, in the model's terms. -/
theorem State.spriteLights_iff (x y : RegIx) (n : Nibble) (u v : Nat) :
    s.spriteLights x y n u v ↔
      ∃ r, r < spriteRows (s.wideSprite n) n ∧ v = ((s.getV y).toNat + r) % s.mode.height ∧
        ∃ c, c < spriteWidth (s.wideSprite n) ∧ ((s.getV x).toNat + c) % s.mode.width = u ∧
          s.spriteBit (s.wideSprite n) r c = true := by
  unfold State.spriteLights
  simp only [s.spriteBit_iff]
  rw [s.wideSprite_eq]
  constructor
  · rintro ⟨r, c, hr, hc, hu, hv, h⟩
    exact ⟨r, hr, hv.symm, c, hc, hu, h⟩
  · rintro ⟨r, hr, hv, c, hc, hu, h⟩
    exact ⟨r, c, hr, hc, hu, hv.symm, h⟩

end Sys2Proof.Machine
end

