-- ==== Sys2Proof/Laws/Exec.lean ====
section
/-!
SUPPORT. What every arm of `exec` can do, said once: it answers a next state, and how it may change `Run`; and the frames of
the shared ways to write registers.
-/

namespace Sys2Proof.Machine

/-- No arm stops: every instruction answers a next state from every state (faults are next states, log 1). -/
theorem exec_next (i : Instr) (s : State) : ∃ t, exec i s = .next t := by
  cases i <;> exact ⟨_, rfl⟩

/-- Everything an instruction can do to `Run`: keep it, end a run, wait, or raise one of the three faults of execution, which
change nothing else (R232, R233, R235, R236). -/
theorem exec_run {i : Instr} {s t : State} (h : exec i s = .next t) :
    t.run = s.run ∨ (i = .exit ∧ t.run = .halted) ∨ (∃ x, i = .ldKey x ∧ t.run = .awaitingKey x) ∨
     (∃ a, i = .call a ∧ 0xFD < s.sp.toNat ∧ t = s.raise (.stackOverflow s.sp)) ∨
     (i = .ret ∧ s.sp.toNat < 2 ∧ t = s.raise (.stackUnderflow s.sp)) ∨
     (∃ x, (i = .skpr x ∨ i = .skup x) ∧ 15 < (s.getV x).toNat ∧ t = s.raise (.unknownKey (s.getV x))) := by
  cases i with
  | exit => cases h; exact .inr (.inl ⟨rfl, rfl⟩)
  | ldKey x => cases h; exact .inr (.inr (.inl ⟨x, rfl, rfl⟩))
  | call a =>
    cases h
    by_cases hc : s.sp.toNat > stackMaxSp
    · exact .inr (.inr (.inr (.inl ⟨a, rfl, hc, by rw [if_pos hc]⟩)))
    · left; rw [if_neg hc]; rfl
  | ret =>
    cases h
    by_cases hc : s.sp.toNat < stackMinSp
    · exact .inr (.inr (.inr (.inr (.inl ⟨rfl, hc, by rw [if_pos hc]⟩))))
    · left; rw [if_neg hc]; rfl
  | skpr x =>
    cases h
    rcases s.keySkip_cases true (s.getV x) with ⟨h1, h2⟩ | ⟨h1, h2⟩
    · exact .inr (.inr (.inr (.inr (.inr ⟨x, .inl rfl, h1, h2⟩))))
    · left; rw [h2]; simp [State.skipIf_eq]
  | skup x =>
    cases h
    rcases s.keySkip_cases false (s.getV x) with ⟨h1, h2⟩ | ⟨h1, h2⟩
    · exact .inr (.inr (.inr (.inr (.inr ⟨x, .inr rfl, h1, h2⟩))))
    · left; rw [h2]; simp [State.skipIf_eq]
  | rnd x kk => cases h; left; simp
  | storeRegs x => cases h; left; rw [(storeLoop_frame s (regsUpTo x)).1]
  | loadRegs x => cases h; left; rw [(loadLoop_spec s (regsUpTo x)).1]
  | storeRpl x => cases h; left; rw [(storeRplLoop_spec s (regsUpTo x)).1]
  | loadRpl x => cases h; left; rw [(loadRplLoop_spec s (regsUpTo x)).1]
  | _ => cases h; left; rfl

/-! ## Frames of the shared writes -/

theorem onlyRegs_setV (s : State) (x : RegIx) (b : Byte) : OnlyRegs [x] s (s.setV x b) :=
  ⟨fun r hr => by rw [State.getV_setV, if_neg (by simpa using hr)], fun _ => rfl, rfl⟩

theorem onlyRegs_writeWithFlag (s : State) (x : RegIx) (b : Byte) (c : Bool) :
    OnlyRegs [x, 0xF] s (s.writeWithFlag x b c) :=
  ⟨fun r hr => by
    simp only [List.mem_cons, List.not_mem_nil, or_false, not_or] at hr
    rw [State.getV_writeWithFlag, if_neg hr.2, if_neg hr.1], fun _ => rfl, rfl⟩

theorem State.setV_self (s : State) (x : RegIx) : s.setV x (s.getV x) = s := by
  simp [State.setV, State.getV]

/-! ## Numbers of the operand forms -/

theorem toNat_addrOperand (n : Addr) : (addrOperand n).toNat = n.toNat := by
  simp [addrOperand]
  omega

theorem toNat_lowByte (w : Word) : (lowByte w).toNat = w.toNat % 256 := by
  simp [lowByte, BitVec.extractLsb'_toNat]

theorem toNat_highByte (w : Word) : (highByte w).toNat = w.toNat / 256 := by
  have := w.isLt
  simp [highByte, BitVec.extractLsb'_toNat, Nat.shiftRight_eq_div_pow]
  omega

end Sys2Proof.Machine
end

