-- ==== Sys2Proof/Laws/PerInstr.lean ====
section
/-!
SUPPORT. The family `RoundTrip`: for one instruction, that the decoder reads it back from its own word. One lemma for
each constructor of `Instr`.
-/

namespace Sys2Proof.Laws.RoundTrip

/-- A well-formed instruction is what its word decodes to. -/
def Statement (i : Instr) : Prop := i.wf = true → decodeWord (encode i) = .ok i

theorem cls : Statement .cls := fun _ => by decide
theorem ret : Statement .ret := fun _ => by decide
theorem scd (n : Nibble) : Statement (.scd n) := fun _ => by revert n; decide
theorem scr : Statement .scr := fun _ => by decide
theorem scl : Statement .scl := fun _ => by decide
theorem exit : Statement .exit := fun _ => by decide
theorem low : Statement .low := fun _ => by decide
theorem high : Statement .high := fun _ => by decide

theorem sys (nnn : Addr) : Statement (.sys nnn) := fun h => by
  simp only [Instr.wf, isListedSystemByte, Bool.not_eq_true', Bool.or_eq_false_iff, beq_eq_false_iff_ne] at h
  have hy : (nnn.extractLsb' 0 8).extractLsb' 4 4 = nnn.extractLsb' 4 4 := by
    apply BitVec.eq_of_getLsbD_eq; intro k hk
    simp [hk]
  rw [hy] at h
  simp [encode, decodeWord, decodeSystem, h]

theorem jp (nnn : Addr) : Statement (.jp nnn) := fun _ => by simp [encode, decodeWord]
theorem call (nnn : Addr) : Statement (.call nnn) := fun _ => by simp [encode, decodeWord]
theorem seImm (x : RegIx) (kk : Byte) : Statement (.seImm x kk) := fun _ => by simp [encode, decodeWord]
theorem sneImm (x : RegIx) (kk : Byte) : Statement (.sneImm x kk) := fun _ => by simp [encode, decodeWord]
theorem seReg (x y : RegIx) : Statement (.seReg x y) := fun _ => by simp [encode, decodeWord]
theorem ldImm (x : RegIx) (kk : Byte) : Statement (.ldImm x kk) := fun _ => by simp [encode, decodeWord]
theorem addImm (x : RegIx) (kk : Byte) : Statement (.addImm x kk) := fun _ => by simp [encode, decodeWord]
theorem ldReg (x y : RegIx) : Statement (.ldReg x y) := fun _ => by simp [encode, decodeWord, decodeAlu]
theorem orReg (x y : RegIx) : Statement (.orReg x y) := fun _ => by simp [encode, decodeWord, decodeAlu]
theorem andReg (x y : RegIx) : Statement (.andReg x y) := fun _ => by simp [encode, decodeWord, decodeAlu]
theorem xorReg (x y : RegIx) : Statement (.xorReg x y) := fun _ => by simp [encode, decodeWord, decodeAlu]
theorem addReg (x y : RegIx) : Statement (.addReg x y) := fun _ => by simp [encode, decodeWord, decodeAlu]
theorem subReg (x y : RegIx) : Statement (.subReg x y) := fun _ => by simp [encode, decodeWord, decodeAlu]
theorem shr (x : RegIx) : Statement (.shr x) := fun _ => by simp [encode, decodeWord, decodeAlu]
theorem subnReg (x y : RegIx) : Statement (.subnReg x y) := fun _ => by simp [encode, decodeWord, decodeAlu]
theorem shl (x : RegIx) : Statement (.shl x) := fun _ => by simp [encode, decodeWord, decodeAlu]
theorem sneReg (x y : RegIx) : Statement (.sneReg x y) := fun _ => by simp [encode, decodeWord]
theorem ldI (nnn : Addr) : Statement (.ldI nnn) := fun _ => by simp [encode, decodeWord]
theorem jpI (nnn : Addr) : Statement (.jpI nnn) := fun _ => by simp [encode, decodeWord]
theorem rnd (x : RegIx) (kk : Byte) : Statement (.rnd x kk) := fun _ => by simp [encode, decodeWord]
theorem drw (x y : RegIx) (n : Nibble) : Statement (.drw x y n) := fun _ => by simp [encode, decodeWord]
theorem skpr (x : RegIx) : Statement (.skpr x) := fun _ => by simp [encode, decodeWord, decodeKeyOp]
theorem skup (x : RegIx) : Statement (.skup x) := fun _ => by simp [encode, decodeWord, decodeKeyOp]
theorem ldFromDt (x : RegIx) : Statement (.ldFromDt x) := fun _ => by simp [encode, decodeWord, decodeMisc]
theorem ldKey (x : RegIx) : Statement (.ldKey x) := fun _ => by simp [encode, decodeWord, decodeMisc]
theorem ldDt (x : RegIx) : Statement (.ldDt x) := fun _ => by simp [encode, decodeWord, decodeMisc]
theorem ldSt (x : RegIx) : Statement (.ldSt x) := fun _ => by simp [encode, decodeWord, decodeMisc]
theorem addI (x : RegIx) : Statement (.addI x) := fun _ => by simp [encode, decodeWord, decodeMisc]
theorem ldF (x : RegIx) : Statement (.ldF x) := fun _ => by simp [encode, decodeWord, decodeMisc]
theorem ldHf (x : RegIx) : Statement (.ldHf x) := fun _ => by simp [encode, decodeWord, decodeMisc]
theorem bcd (x : RegIx) : Statement (.bcd x) := fun _ => by simp [encode, decodeWord, decodeMisc]
theorem storeRegs (x : RegIx) : Statement (.storeRegs x) := fun _ => by simp [encode, decodeWord, decodeMisc]
theorem loadRegs (x : RegIx) : Statement (.loadRegs x) := fun _ => by simp [encode, decodeWord, decodeMisc]
theorem storeRpl (x : RegIx) : Statement (.storeRpl x) := fun _ => by simp [encode, decodeWord, decodeMisc]
theorem loadRpl (x : RegIx) : Statement (.loadRpl x) := fun _ => by simp [encode, decodeWord, decodeMisc]

end Sys2Proof.Laws.RoundTrip
end

