-- ==== Sys2Proof/Laws/Transactions.lean ====
section
/-!
SUPPORT. The host's transactions: the two ways a `load` ends, what a step that is given inputs sees and leaves, and what
it returns. Provers cite these instead of unfolding `transact` and `transactReturn`.
-/

namespace Sys2Proof.Machine

variable (s : State)

/-! ## `load` -/

theorem loadFits_iff (bytes : List Byte) (offset : Word) :
    loadFits bytes offset = true ↔ offset.toNat + bytes.length ≤ 4096 := decide_eq_true_iff

theorem State.raiseToHost_halted {s : State} (h : s.run = .halted) (f : Fault) : s.raiseToHost f = s := by
  simp only [State.raiseToHost, h]

theorem State.raiseToHost_raise {s : State} (h : s.run ≠ .halted) (f : Fault) : s.raiseToHost f = s.raise f := by
  unfold State.raiseToHost
  split
  · contradiction
  all_goals rfl

/-- A `load` copies and returns nothing, or raises the fault that it also returns (R64, R236). -/
theorem load_cases (bytes : List Byte) (offset : Word) :
    (offset.toNat + bytes.length ≤ 4096 ∧ s.load bytes offset = { s with mem := s.mem.copyIn offset.toNat bytes } ∧
      loadReturn bytes offset = .next .nothing) ∨
    (4096 < offset.toNat + bytes.length ∧ s.load bytes offset = s.raiseToHost (.outOfBounds offset bytes.length) ∧
      loadReturn bytes offset = .fault (.outOfBounds offset bytes.length)) := by
  unfold State.load loadReturn
  cases h : loadFits bytes offset
  · refine .inr ⟨?_, rfl, rfl⟩
    have := (loadFits_iff bytes offset).not.1 (by simp [h])
    omega
  · exact .inl ⟨(loadFits_iff bytes offset).1 h, rfl, rfl⟩

/-! ## The inputs of one step -/

@[simp] theorem State.present_run (k : KeySample) (b : Byte) : (s.present k b).run = s.run := rfl
@[simp] theorem State.present_pc (k : KeySample) (b : Byte) : (s.present k b).pc = s.pc := rfl
@[simp] theorem State.present_draws (k : KeySample) (b : Byte) : (s.present k b).draws = s.draws := rfl
@[simp] theorem State.present_fetchWord (k : KeySample) (b : Byte) : (s.present k b).fetchWord = s.fetchWord := rfl
@[simp] theorem State.present_executedWord (k : KeySample) (b : Byte) :
    (s.present k b).executedWord = s.executedWord := rfl
@[simp] theorem State.present_getV (k : KeySample) (b : Byte) (r : RegIx) : (s.present k b).getV r = s.getV r := rfl
@[simp] theorem State.dropInputs_run : s.dropInputs.run = s.run := rfl
@[simp] theorem State.dropInputs_pc : s.dropInputs.pc = s.pc := rfl
@[simp] theorem State.dropInputs_draws : s.dropInputs.draws = s.draws := rfl
@[simp] theorem State.dropInputs_getV (r : RegIx) : s.dropInputs.getV r = s.getV r := rfl

/-- With inputs presented, an instruction takes them and draws no free value (log 2, log 3). -/
theorem exec_draws {i : Instr} {s t : State} (h : exec i s = .next t) (hk : s.keyInputs ≠ []) (hr : s.rndInputs ≠ []) :
    t.draws = s.draws := by
  have hkeys : s.takeKeys.draws = s.draws := by
    unfold State.takeKeys
    split
    · rfl
    · contradiction
  have hrnd : s.takeRandom.draws = s.draws := by
    unfold State.takeRandom
    split
    · rfl
    · contradiction
  cases i with
  | ret => cases h; split <;> rfl
  | call a => cases h; split <;> rfl
  | skpr x =>
    cases h
    obtain ⟨-, h⟩ | ⟨-, h⟩ := s.keySkip_cases true (s.getV x) <;> rw [h]
    · rfl
    · exact hkeys
  | skup x =>
    cases h
    obtain ⟨-, h⟩ | ⟨-, h⟩ := s.keySkip_cases false (s.getV x) <;> rw [h]
    · rfl
    · exact hkeys
  | rnd x kk => cases h; exact hrnd
  | storeRegs x => cases h; rw [(storeLoop_frame s (regsUpTo x)).1]
  | loadRegs x => cases h; rw [(loadLoop_spec s (regsUpTo x)).1]
  | storeRpl x => cases h; rw [(storeRplLoop_spec s (regsUpTo x)).1]
  | loadRpl x => cases h; rw [(loadRplLoop_spec s (regsUpTo x)).1]
  | _ => cases h; rfl

/-- What a step with inputs leaves and returns, from the step on the presented state. -/
theorem transact_step {k : KeySample} {b : Byte} {t : State} (h : step (s.present k b) = .next t) :
    transact (.step k b) s = .next t.dropInputs ∧
      stepReturn (s.present k b) = stepReturnOf (s.present k b) t := by
  simp only [transact, stepWith, stepReturn, h, and_self]

end Sys2Proof.Machine
end

