-- ==== Sys2Proof/Tests/Slice0.lean ====
section
/-!
SUPPORT. The model's own tests: ill-formed terms are refused, every constructor's decoding by a word written out from the
spec's encodings, one-step tests on the values of 95_test_vectors.md (the row is named beside each), and a witness for
every statement that has hypotheses.
-/

namespace Sys2Proof.Tests

open Sys2Proof.Machine

set_option Elab.async false

/-! ## Helpers -/

/-- The constructed state, changed by `f`, with the word `w` at `PC`. -/
def boot (w : Nat) (f : State → State := id) : State := (f State.reset).withFetchWord 16 w

/-- One step goes to a state that meets `p`. -/
def steps (s : State) (p : State → Bool) : Bool :=
  match step s with
  | .next t => p t
  | .fault _ | .refused _ => false

/-- The registers listed are set. -/
def regs (l : List (RegIx × Byte)) (s : State) : State := l.foldl (fun s c => s.setV c.1 c.2) s

/-- The bytes listed are stored. -/
def bytes (l : List (Word × Byte)) (s : State) : State := l.foldl (fun s c => s.memWrite c.1 c.2) s

/-- The grid of the mode with the pixels listed lit. -/
def lit (m : Mode) (l : List (Nat × Nat)) : Grid :=
  l.foldl (fun g p => g.setPixel p.1 p.2 true) (Grid.blank m.width m.height)

/-- The display holds mode `m` and the pixels listed. -/
def shows (m : Mode) (l : List (Nat × Nat)) (s : State) : State := { s with mode := m, fb := lit m l }

/-- The key sample in which exactly the keys listed are pressed. -/
def keysDown (l : List Nat) : KeySample := Vector.ofFn fun k => l.contains k.val

/-- Grid G of 95_test_vectors.md L2.2. -/
def gridG : State → State := shows .normal [(3, 0), (0, 31), (63, 30)]

/-- Grid GE of 95_test_vectors.md L2.2. -/
def gridGE : State → State := shows .extended [(0, 0), (5, 50), (127, 63)]

/-! ## Well-formedness: `SYS` with a listed low byte has no encoding of its own (R75, R100) -/

theorem test_sys_not_cls : (Instr.sys 0x0E0).wf = false := by decide
theorem test_sys_not_ret : (Instr.sys 0x1EE).wf = false := by decide
theorem test_sys_not_scd : (Instr.sys 0x2C0).wf = false ∧ (Instr.sys 0xFCF).wf = false := by decide
theorem test_sys_not_scr_scl_exit :
    (Instr.sys 0x0FB).wf = false ∧ (Instr.sys 0x0FC).wf = false ∧ (Instr.sys 0x0FD).wf = false := by decide
theorem test_sys_not_low_high : (Instr.sys 0x0FE).wf = false ∧ (Instr.sys 0xFFF).wf = false := by decide
theorem test_sys_well_formed :
    (Instr.sys 0x234).wf = true ∧ (Instr.sys 0x000).wf = true ∧ (Instr.sys 0x0FA).wf = true := by decide

/-! ## Decoding, words from 30_encoding.md R75 to R83 -/

theorem test_decode_system :
    decodeWord 0b0000_0000_1110_0000 = .ok .cls ∧ decodeWord 0b0000_0000_1110_1110 = .ok .ret ∧
    decodeWord 0b0000_0000_1100_0010 = .ok (.scd 2) ∧ decodeWord 0b0000_0000_1111_1011 = .ok .scr ∧
    decodeWord 0b0000_0000_1111_1100 = .ok .scl ∧ decodeWord 0b0000_0000_1111_1101 = .ok .exit ∧
    decodeWord 0b0000_0000_1111_1110 = .ok .low ∧ decodeWord 0b0000_0000_1111_1111 = .ok .high ∧
    decodeWord 0b0000_0010_0011_0100 = .ok (.sys 0x234) := by decide
/-- S4: bits 11:8 are ignored. -/
theorem test_decode_system_ignored :
    decodeWord 0x0CE0 = .ok .cls ∧ decodeWord 0x0FEE = .ok .ret ∧ decodeWord 0x0AC3 = .ok (.scd 3) ∧
    decodeWord 0x01FF = .ok .high := by decide
theorem test_decode_flow :
    decodeWord 0x1234 = .ok (.jp 0x234) ∧ decodeWord 0x2ABC = .ok (.call 0xABC) ∧
    decodeWord 0x3210 = .ok (.seImm 0x2 0x10) ∧ decodeWord 0x4210 = .ok (.sneImm 0x2 0x10) ∧
    decodeWord 0x5121 = .ok (.seReg 0x1 0x2) ∧ decodeWord 0x9120 = .ok (.sneReg 0x1 0x2) ∧
    decodeWord 0xB123 = .ok (.jpI 0x123) := by decide
theorem test_decode_immediates :
    decodeWord 0b0110_1010_0000_0101 = .ok (.ldImm 0xA 0x05) ∧ decodeWord 0x7A10 = .ok (.addImm 0xA 0x10) ∧
    decodeWord 0xA2F0 = .ok (.ldI 0x2F0) ∧ decodeWord 0xC30F = .ok (.rnd 0x3 0x0F) := by decide
theorem test_decode_alu :
    decodeWord 0x8230 = .ok (.ldReg 0x2 0x3) ∧ decodeWord 0x8231 = .ok (.orReg 0x2 0x3) ∧
    decodeWord 0x8232 = .ok (.andReg 0x2 0x3) ∧ decodeWord 0x8233 = .ok (.xorReg 0x2 0x3) ∧
    decodeWord 0b1000_0010_0011_0100 = .ok (.addReg 0x2 0x3) ∧ decodeWord 0x8235 = .ok (.subReg 0x2 0x3) ∧
    decodeWord 0x8206 = .ok (.shr 0x2) ∧ decodeWord 0x8237 = .ok (.subnReg 0x2 0x3) ∧
    decodeWord 0x820E = .ok (.shl 0x2) := by decide
theorem test_decode_draw : decodeWord 0b1101_0010_0011_0001 = .ok (.drw 0x2 0x3 0x1) := by decide
theorem test_decode_keys :
    decodeWord 0b1110_0101_1001_1110 = .ok (.skpr 0x5) ∧ decodeWord 0xEFA1 = .ok (.skup 0xF) := by decide
theorem test_decode_misc :
    decodeWord 0xF307 = .ok (.ldFromDt 0x3) ∧ decodeWord 0xF30A = .ok (.ldKey 0x3) ∧
    decodeWord 0xF115 = .ok (.ldDt 0x1) ∧ decodeWord 0xF118 = .ok (.ldSt 0x1) ∧
    decodeWord 0xF01E = .ok (.addI 0x0) ∧ decodeWord 0xF429 = .ok (.ldF 0x4) ∧
    decodeWord 0xF430 = .ok (.ldHf 0x4) ∧ decodeWord 0b1111_0000_0011_0011 = .ok (.bcd 0x0) ∧
    decodeWord 0xF255 = .ok (.storeRegs 0x2) ∧ decodeWord 0xF265 = .ok (.loadRegs 0x2) ∧
    decodeWord 0xF175 = .ok (.storeRpl 0x1) ∧ decodeWord 0xF185 = .ok (.loadRpl 0x1) := by decide
/-- E4 to E11: illegal words. -/
theorem test_decode_illegal :
    decodeWord 0x8008 = .error (.unknownAlu 0x8008) ∧ decodeWord 0x800F = .error (.unknownAlu 0x800F) ∧
    decodeWord 0x8FFD = .error (.unknownAlu 0x8FFD) ∧ decodeWord 0xE000 = .error (.unknownKeyOp 0xE000) ∧
    decodeWord 0xE09F = .error (.unknownKeyOp 0xE09F) ∧ decodeWord 0xF000 = .error (.unknownMisc 0xF000) ∧
    decodeWord 0xF0FF = .error (.unknownMisc 0xF0FF) ∧ decodeWord 0xF00B = .error (.unknownMisc 0xF00B) := by decide
/-- Bytes in memory order, the first one high (R52). -/
theorem test_decode_bytes :
    decode [0x6A, 0x05, 0x7A] = .ok (.ldImm 0xA 0x05, [0x7A]) ∧ decode [0x6A] = .error .tooShort := by decide
theorem test_decode_table_word :
    decodeTableWord 16 0x6A05 = some (.ldImm 0xA 0x05) ∧ decodeTableWord 16 0x8008 = none := by decide
theorem test_encode_bytes : encodeBytes (.ldImm 0xA 0x05) = [0x6A, 0x05] ∧ encodeBytes .ret = [0x00, 0xEE] := by decide

/-! ## Fetch, program counter, run states (L2.1) -/

/-- E1: the two fetch addresses are masked one by one, `PC` is not. -/
theorem test_fetch_wraps : steps ({ bytes [(0xFFF, 0x6A), (0x000, 0x42)] State.reset with pc := 0xFFF })
    (fun t => t.getV 0xA == 0x42 && t.pc == 0x1001) = true := by decide +kernel
/-- E3: `PC` wraps at 2^16. -/
theorem test_pc_wraps : steps { State.reset with pc := 0xFFFE } (fun t => t.pc == 0x0000) = true := by decide +kernel
/-- E4: an illegal word faults with `PC` advanced. -/
theorem test_illegal_word : steps (boot 0x8008)
    (fun t => t.run == .faulted (.unknownOpcode 0x8008) && t.pc == 0x202) = true := by decide +kernel
/-- E12: a step of a faulted block changes nothing. -/
theorem test_faulted_step : steps { State.reset with run := .faulted (.unknownOpcode 0x8008) }
    (fun t => t == { State.reset with run := .faulted (.unknownOpcode 0x8008) }) = true := by decide +kernel
/-- S18: a step of a halted block changes nothing. -/
theorem test_halted_step : steps { State.reset with run := .halted }
    (fun t => t == { State.reset with run := .halted }) = true := by decide +kernel

/-! ## System family (L2.2) -/

/-- S1. -/
theorem test_sys : steps (boot 0x0234) (fun t => t == { boot 0x0234 with pc := 0x202 }) = true := by decide +kernel
/-- S3. -/
theorem test_cls : steps (boot 0x00E0 gridG)
    (fun t => t.fb == lit .normal [] && t.dirty == 1 && t.mode == .normal) = true := by decide +kernel
/-- S5, with the second byte changed so that the byte order shows. -/
theorem test_ret : steps (boot 0x00EE fun s => { bytes [(0x50, 0xCD), (0x51, 0xAB)] s with sp := 0x52 })
    (fun t => t.sp == 0x50 && t.pc == 0xABCD) = true := by decide +kernel
/-- S8. -/
theorem test_ret_underflow : steps (boot 0x00EE fun s => { s with sp := 1 })
    (fun t => t.run == .faulted (.stackUnderflow 1) && t.sp == 1 && t.pc == 0x202) = true := by decide +kernel
/-- S9. -/
theorem test_scd : steps (boot 0x00C2 gridG) (fun t => t.fb == lit .normal [(3, 2)] && t.dirty == 1) = true := by
  decide +kernel
/-- S16. -/
theorem test_scd_extended : steps (boot 0x00CF gridGE) (fun t => t.fb == lit .extended [(0, 15)]) = true := by
  decide +kernel
/-- S12. -/
theorem test_scr : steps (boot 0x00FB gridG) (fun t => t.fb == lit .normal [(7, 0), (4, 31)]) = true := by
  decide +kernel
/-- S14. -/
theorem test_scr_extended : steps (boot 0x00FB gridGE) (fun t => t.fb == lit .extended [(4, 0), (9, 50)]) = true := by
  decide +kernel
/-- S13. -/
theorem test_scl : steps (boot 0x00FC gridG) (fun t => t.fb == lit .normal [(59, 30)]) = true := by decide +kernel
/-- S15. -/
theorem test_scl_extended : steps (boot 0x00FC gridGE)
    (fun t => t.fb == lit .extended [(1, 50), (123, 63)]) = true := by decide +kernel
/-- S17. -/
theorem test_exit : steps (boot 0x00FD) (fun t => t.run == .halted && t.pc == 0x202) = true ∧
    stepReturn (boot 0x00FD) = .next (some 0x00FD, .halted) := ⟨by decide +kernel, rfl⟩
/-- S20: a switch to the same mode still clears. -/
theorem test_low : steps (boot 0x00FE gridG)
    (fun t => t.mode == .normal && t.fb == lit .normal [] && t.dirty == 1) = true := by decide +kernel
/-- S19. -/
theorem test_high : steps (boot 0x00FF gridG)
    (fun t => t.mode == .extended && t.fb == lit .extended [] && t.dirty == 1) = true := by decide +kernel

/-! ## Control transfer (L2.3) -/

/-- J1. -/
theorem test_jp : steps (boot 0x1FFF) (fun t => t.pc == 0xFFF) = true := by decide +kernel
/-- J5: the pushed address is the advanced `PC`, not masked; low byte first. -/
theorem test_call : steps (boot 0x2ABC fun s => { s with pc := 0xFFE })
    (fun t => t.memRead 0x52 == 0x00 && t.memRead 0x53 == 0x10 && t.sp == 0x54 && t.pc == 0xABC) = true := by
  decide +kernel
/-- J4. -/
theorem test_call_overflow : steps (boot 0x2300 fun s => { s with sp := 0xFE })
    (fun t => t.run == .faulted (.stackOverflow 0xFE) && t.sp == 0xFE && t.memRead 0xFE == 0 && t.pc == 0x202) =
    true := by decide +kernel
/-- J6. -/
theorem test_se_imm : steps (boot 0x3210 (regs [(2, 0x10)])) (fun t => t.pc == 0x204) = true := by decide +kernel
/-- J7. -/
theorem test_se_imm_not : steps (boot 0x3210 (regs [(2, 0x11)])) (fun t => t.pc == 0x202) = true := by decide +kernel
/-- J9. -/
theorem test_sne_imm : steps (boot 0x4210 (regs [(2, 0x11)])) (fun t => t.pc == 0x204) = true := by decide +kernel
/-- J10. -/
theorem test_sne_imm_not : steps (boot 0x4210 (regs [(2, 0x10)])) (fun t => t.pc == 0x202) = true := by decide +kernel
/-- J11. -/
theorem test_se_reg : steps (boot 0x5120 (regs [(1, 7), (2, 7)])) (fun t => t.pc == 0x204) = true := by decide +kernel
/-- J12. -/
theorem test_sne_reg : steps (boot 0x9120 (regs [(1, 7), (2, 8)])) (fun t => t.pc == 0x204) = true := by decide +kernel
/-- J13. -/
theorem test_sne_reg_same : steps (boot 0x9000) (fun t => t.pc == 0x202) = true := by decide +kernel
/-- J16. -/
theorem test_jp_i : steps (boot 0xB123 fun s => { s with i := 0x1000 }) (fun t => t.pc == 0x1123) = true := by
  decide +kernel
/-- J17. -/
theorem test_jp_i_wraps : steps (boot 0xBFFF fun s => { s with i := 0xFFFF }) (fun t => t.pc == 0x0FFE) = true := by
  decide +kernel

/-! ## Registers and arithmetic (L2.4) -/

/-- A1. -/
theorem test_ld_imm : steps (boot 0x6A05) (fun t => t.getV 0xA == 0x05 && t.pc == 0x202) = true := by decide +kernel
/-- A2. -/
theorem test_add_imm : steps (boot 0x7302 (regs [(3, 0xFF)])) (fun t => t.getV 3 == 0x01 && t.getV 0xF == 0) = true := by
  decide +kernel
/-- A3. -/
theorem test_add_imm_flag_register : steps (boot 0x7F01 (regs [(0xF, 0xFF)])) (fun t => t.getV 0xF == 0) = true := by
  decide +kernel
/-- A23. -/
theorem test_ld_reg : steps (boot 0x8010 (regs [(1, 0x33)])) (fun t => t.getV 0 == 0x33 && t.getV 0xF == 0) = true := by
  decide +kernel
/-- A24. -/
theorem test_or : steps (boot 0x8011 (regs [(0, 0xF0), (1, 0x0F)])) (fun t => t.getV 0 == 0xFF) = true := by
  decide +kernel
/-- A25. -/
theorem test_and : steps (boot 0x8012 (regs [(0, 0xF0), (1, 0x3C)])) (fun t => t.getV 0 == 0x30) = true := by
  decide +kernel
/-- A26. -/
theorem test_xor : steps (boot 0x8013 (regs [(0, 0xF0), (1, 0x3C)])) (fun t => t.getV 0 == 0xCC) = true := by
  decide +kernel
/-- A5: the flag wins over the sum. -/
theorem test_add_reg_x_is_flag : steps (boot 0x8F14 (regs [(0xF, 0x80), (1, 0x90)])) (fun t => t.getV 0xF == 1) =
    true := by decide +kernel
/-- A6: the old `VF` is the operand. -/
theorem test_add_reg_y_is_flag : steps (boot 0x81F4 (regs [(1, 0x10), (0xF, 0x05)]))
    (fun t => t.getV 1 == 0x15 && t.getV 0xF == 0) = true := by decide +kernel
/-- A7. -/
theorem test_sub : steps (boot 0x8015 (regs [(0, 0x05), (1, 0x07)])) (fun t => t.getV 0 == 0xFE && t.getV 0xF == 0) =
    true := by decide +kernel
/-- A8. -/
theorem test_sub_equal : steps (boot 0x8015 (regs [(0, 0x05), (1, 0x05)]))
    (fun t => t.getV 0 == 0 && t.getV 0xF == 0) = true := by decide +kernel
/-- A17. -/
theorem test_shr : steps (boot 0x8126 (regs [(1, 0x02), (2, 0xFF)]))
    (fun t => t.getV 1 == 1 && t.getV 0xF == 0 && t.getV 2 == 0xFF) = true := by decide +kernel
/-- A18. -/
theorem test_shr_flag_register : steps (boot 0x8F06 (regs [(0xF, 0x03)])) (fun t => t.getV 0xF == 1) = true := by
  decide +kernel
/-- A12. -/
theorem test_subn : steps (boot 0x8017 (regs [(0, 0x05), (1, 0x07)])) (fun t => t.getV 0 == 2 && t.getV 0xF == 1) =
    true := by decide +kernel
/-- A14. -/
theorem test_subn_borrow : steps (boot 0x8017 (regs [(0, 0x07), (1, 0x05)]))
    (fun t => t.getV 0 == 0xFE && t.getV 0xF == 0) = true := by decide +kernel
/-- A22. -/
theorem test_shl : steps (boot 0x820E (regs [(2, 0x81)])) (fun t => t.getV 2 == 0x02 && t.getV 0xF == 1) = true := by
  decide +kernel
/-- A21. -/
theorem test_shl_flag_register : steps (boot 0x8F0E (regs [(0xF, 0xC0)])) (fun t => t.getV 0xF == 1) = true := by
  decide +kernel
/-- A28. -/
theorem test_ld_i : steps (boot 0xA2F0) (fun t => t.i == 0x2F0) = true := by decide +kernel
/-- A29. -/
theorem test_rnd : steps (boot 0xC30F fun s => { s with rndInputs := [0xA7] })
    (fun t => t.getV 3 == 0x07 && t.rndInputs == []) = true := by decide +kernel

/-! ## Draw (L2.5) -/

/-- W4: one lit pixel goes dark, so there is a collision; both rows of a sprite. -/
theorem test_drw_collision :
    steps (boot 0xD012 fun s => { bytes [(0x300, 0x40)] (shows .normal [(0, 0), (1, 0), (1, 1), (2, 1)] s) with i := 0x300 })
    (fun t => t.fb == lit .normal [(0, 0), (1, 1), (2, 1)] && t.getV 0xF == 1) = true := by decide +kernel
/-- W8: the 16x16 form in Extended mode, wrapping in both directions. -/
theorem test_drw_wide :
    steps (boot 0xD010 fun s => { regs [(0, 120), (1, 60)] (bytes ((List.range 32).map fun k =>
        (0x300 + BitVec.ofNat 16 k, if k % 2 = 0 then 0x80 else 0x01)) (shows .extended [] s)) with i := 0x300 })
    (fun t => t.fb == lit .extended ((List.range 16).flatMap fun r => [(120, (60 + r) % 64), (7, (60 + r) % 64)]) &&
      t.getV 0xF == 0) = true := by decide +kernel
/-! ## Keys (L2.6) -/

/-- K1. -/
theorem test_skpr : steps (boot 0xE59E fun s => { regs [(5, 0x0A)] s with keyInputs := [keysDown [0xA]] })
    (fun t => t.pc == 0x204) = true := by decide +kernel
/-- K5. -/
theorem test_skpr_no_key : steps (boot 0xE59E (regs [(5, 0x10)]))
    (fun t => t.run == .faulted (.unknownKey 0x10) && t.pc == 0x202 && t.draws == 0) = true := by decide +kernel
/-- K6. -/
theorem test_skup : steps (boot 0xEFA1 fun s => { regs [(0xF, 0x0F)] s with keyInputs := [keysDown []] })
    (fun t => t.pc == 0x204) = true := by decide +kernel
/-- K4. -/
theorem test_skup_pressed : steps (boot 0xE5A1 fun s => { regs [(5, 0x0A)] s with keyInputs := [keysDown [0xA]] })
    (fun t => t.pc == 0x202) = true := by decide +kernel

/-! ## Misc family (L2.7) -/

/-- F1. -/
theorem test_ld_from_dt : steps (boot 0xF307 fun s => { s with dt := 0x3C }) (fun t => t.getV 3 == 0x3C) = true := by
  decide +kernel
/-- F2. -/
theorem test_ld_key : steps (boot 0xF30A) (fun t => t.run == .awaitingKey 3 && t.pc == 0x202) = true ∧
    stepReturn (boot 0xF30A) = .next (some 0xF30A, .awaitingKey 3) := ⟨by decide +kernel, rfl⟩
/-- F7. -/
theorem test_ld_dt : steps (boot 0xF115 (regs [(1, 2)])) (fun t => t.dt == 2 && t.st == 0) = true := by decide +kernel
/-- F8. -/
theorem test_ld_st : steps (boot 0xF118 (regs [(1, 1)])) (fun t => t.st == 1 && t.dt == 0) = true := by decide +kernel
/-- F9. -/
theorem test_add_i : steps (boot 0xF01E fun s => { regs [(0, 2)] s with i := 0xFFFF })
    (fun t => t.i == 0x0001 && t.getV 0xF == 0) = true := by decide +kernel
/-- F13. -/
theorem test_ld_f : steps (boot 0xF029 (regs [(0, 0xFF)])) (fun t => t.i == 0x4FB) = true := by decide +kernel
/-- F16. -/
theorem test_ld_hf : steps (boot 0xF030 (regs [(0, 0xFF)])) (fun t => t.i == 0x9F6) = true := by decide +kernel
/-- F19. -/
theorem test_bcd : steps (boot 0xF033 fun s => { regs [(0, 123)] s with i := 0x1FFE })
    (fun t => t.memRead 0xFFE == 1 && t.memRead 0xFFF == 2 && t.memRead 0x000 == 3 && t.i == 0x1FFE) = true := by
  decide +kernel
/-- F17. -/
theorem test_bcd_max : steps (boot 0xF033 fun s => { regs [(0, 255)] s with i := 0x300 })
    (fun t => t.memRead 0x300 == 2 && t.memRead 0x301 == 5 && t.memRead 0x302 == 5) = true := by decide +kernel
/-- F21, in its first, ninth and last byte. -/
theorem test_store_regs : steps (boot 0xFF55 fun s =>
      { regs ((List.range 16).map fun k => (BitVec.ofNat 4 k, 0x10 + BitVec.ofNat 8 k)) s with i := 0xFF8 })
    (fun t => t.memRead 0xFF8 == 0x10 && t.memRead 0x000 == 0x18 && t.memRead 0x007 == 0x1F && t.memRead 0x008 == 0 &&
      t.i == 0xFF8) = true := by decide +kernel
/-- F22. -/
theorem test_load_regs : steps (boot 0xF265 fun s =>
      { bytes [(0xFFF, 0x0A), (0x000, 0x0B), (0x001, 0x0C), (0x002, 0x0D)] s with i := 0xFFF })
    (fun t => t.getV 0 == 0x0A && t.getV 1 == 0x0B && t.getV 2 == 0x0C && t.getV 3 == 0 && t.i == 0xFFF) = true := by
  decide +kernel
/-- F24. -/
theorem test_store_rpl : steps (boot 0xFF75 (regs ((List.range 16).map fun k => (BitVec.ofNat 4 k, BitVec.ofNat 8 (3 * k)))))
    (fun t => t.getRpl 0 == 0 && t.getRpl 7 == 21 && t.getRpl 15 == 45) = true := by decide +kernel
/-- F26. -/
theorem test_load_rpl : steps (boot 0xF185 fun s => (regs [(2, 0x77)] s |>.setRpl 0 9).setRpl 1 8)
    (fun t => t.getV 0 == 9 && t.getV 1 == 8 && t.getV 2 == 0x77) = true := by decide +kernel

/-! ## Host transactions (L2.8, F4 to F6) -/

/-- H1 and H2: the bound, and nothing copied past it. -/
theorem test_load :
    (State.load [1, 2, 3] 0xFFE State.reset).run = .faulted (.outOfBounds 0xFFE 3) ∧
    (State.load [1, 2, 3] 0xFFE State.reset).mem = [] ∧
    (State.load [1, 2] 0xFFE State.reset).mem = [(0xFFE, 1), (0xFFF, 2)] := by decide +kernel
/-- H1 and H3, what the caller gets; a block that has already faulted returns the new fault and no old one. -/
theorem test_load_return :
    transactReturn (.load [1, 2, 3] 0xFFE) State.reset = .fault (.outOfBounds 0xFFE 3) ∧
    transactReturn (.load [] 0x1000) (State.reset.raise (.outOfBounds 0xFFE 3)) = .next .nothing := ⟨rfl, rfl⟩
/-- A failing load returns its fault to the host of a halted block too, and the block stays as it was (R242, R255). -/
theorem test_load_halted :
    State.load [1, 2, 3] 0xFFE (State.reset.setRun .halted) = State.reset.setRun .halted ∧
    transactReturn (.load [1, 2, 3] 0xFFE) (State.reset.setRun .halted) = .fault (.outOfBounds 0xFFE 3) := ⟨rfl, rfl⟩
/-- L1.8's first step, as the host calls it. -/
theorem test_step_return :
    (match transactReturn (.step (keysDown []) 0) (boot 0x6A05) with
      | .next a => decide (a = .executed (some 0x6A05) .continue_)
      | .fault _ | .refused _ => false) = true := by decide +kernel
/-- F4, F5, F6. -/
theorem test_key_event :
    ((State.reset.setRun (.awaitingKey 3)).keyEvent 7).getV 3 = 7 ∧
    ((State.reset.setRun (.awaitingKey 3)).keyEvent 7).run = .running ∧
    (State.reset.setRun (.awaitingKey 3)).quit.run = .halted ∧ State.reset.quit = State.reset := by decide +kernel
/-- F7: a timer saturates at 0. -/
theorem test_tick : (State.tickTimers { State.reset with dt := 1, st := 0 }).dt = 0 ∧
    (State.tickTimers { State.reset with dt := 1, st := 0 }).st = 0 := by decide +kernel
/-- H4 and F25. -/
theorem test_reset :
    ((State.reset.setRpl 0 9).setPc 0x30A |>.setRun .halted).resetBlock = State.reset ∧
    (shows .extended [(3, 4)] State.reset).resetBlock.fb = lit .extended [(3, 4)] := by decide +kernel
/-- The host's placing of a word: `step` fetches exactly it, whatever the run state was. -/
theorem test_with_fetch_word :
    (({ State.reset with pc := 0xFFFF, run := .halted } : State).withFetchWord 16 0x6A05).fetchWord = 0x6A05 ∧
    (({ State.reset with pc := 0xFFFF, run := .halted } : State).withFetchWord 16 0x6A05).run = .running := by
  decide +kernel

/-! ## Witnesses: states and operands that meet the hypotheses of a statement, at the edges of its clauses -/

/-- A step's next state, with what it holds. -/
theorem step_meets {s : State} (P : State → Prop) [DecidablePred P] (h : steps s (fun t => decide (P t)) = true) :
    ∃ t, step s = .next t ∧ P t := by
  unfold steps at h
  split at h
  · next t ht => exact ⟨t, ht, of_decide_eq_true h⟩
  · cases h
  · cases h

theorem witness_StepRunsTheDecodedInstruction :
    (boot 0x6A05).run = .running ∧ decodeWord (boot 0x6A05).fetchWord = .ok (.ldImm 0xA 0x05) ∧
    (∃ t, step (boot 0x6A05) = .next t ∧ t.run = .running) ∧ (∃ t, step (boot 0x00FD) = .next t ∧ t.run = .halted) ∧
    decodeWord (boot 0x8008).fetchWord = .error (.unknownAlu 0x8008) :=
  ⟨rfl, by decide +kernel, step_meets _ (by decide +kernel), step_meets _ (by decide +kernel), by decide +kernel⟩

theorem witness_StepIsIdleOutsideRunning :
    (State.reset.setRun (.awaitingKey 3)).run = .awaitingKey 3 ∧ (State.reset.setRun .halted).run = .halted ∧
    (State.reset.raise (.unknownKey 16)).run = .faulted (.unknownKey 16) := ⟨rfl, rfl, rfl⟩

theorem witness_SignalsOfEveryInstruction :
    (boot 0xF30A).run = .running ∧ decodeWord (boot 0xF30A).fetchWord = .ok (.ldKey 3) ∧
    (∃ t, step (boot 0xF30A) = .next t ∧ t.run = .awaitingKey 3) ∧
    decodeWord (boot 0x00FD).fetchWord = .ok .exit ∧ (∃ t, step (boot 0x00FD) = .next t ∧ t.run = .halted) ∧
    decodeWord (boot 0x00E0).fetchWord = .ok .cls ∧ (∃ t, step (boot 0x00E0) = .next t ∧ t.run = .running) :=
  ⟨rfl, by decide +kernel, step_meets _ (by decide +kernel), by decide +kernel, step_meets _ (by decide +kernel),
    by decide +kernel, step_meets _ (by decide +kernel)⟩

/-- Each fault of a step is met, at the edge of its condition. -/
theorem witness_StepRaisesExactlyTheListedFaults :
    (∃ t, step (boot 0x8008) = .next t ∧ t.run = .faulted (.unknownOpcode 0x8008)) ∧
    (∃ t, step (boot 0x2300 fun s => s.setSp 0xFE) = .next t ∧ t.run = .faulted (.stackOverflow 0xFE)) ∧
    (∃ t, step (boot 0x2300 fun s => s.setSp 0xFD) = .next t ∧ t.run = .running) ∧
    (∃ t, step (boot 0x00EE fun s => s.setSp 1) = .next t ∧ t.run = .faulted (.stackUnderflow 1)) ∧
    (∃ t, step (boot 0x00EE fun s => s.setSp 2) = .next t ∧ t.run = .running) ∧
    (∃ t, step (boot 0xE59E (regs [(5, 16)])) = .next t ∧ t.run = .faulted (.unknownKey 16)) ∧
    (∃ t, step (boot 0xE5A1 (regs [(5, 16)])) = .next t ∧ t.run = .faulted (.unknownKey 16)) :=
  ⟨step_meets _ (by decide +kernel), step_meets _ (by decide +kernel), step_meets _ (by decide +kernel),
    step_meets _ (by decide +kernel), step_meets _ (by decide +kernel), step_meets _ (by decide +kernel),
    step_meets _ (by decide +kernel)⟩

theorem witness_FaultsArePrecise :
    (boot 0x8008).run = .running ∧ (∃ t, step (boot 0x8008) = .next t ∧ t.run = .faulted (.unknownOpcode 0x8008)) ∧
    (∃ t, transact (.load [1, 2, 3] 0xFFE) State.reset = .next t) ∧
    transactReturn (.load [1, 2, 3] 0xFFE) State.reset = .fault (.outOfBounds 0xFFE 3) ∧ State.reset.run ≠ .halted ∧
    (State.reset.setRun .halted).run = .halted ∧
    (∃ t, transact (.load [1, 2, 3] 0xFFE) (State.reset.setRun .halted) = .next t) :=
  ⟨rfl, step_meets _ (by decide +kernel), ⟨_, rfl⟩, rfl, by decide, rfl, _, rfl⟩

theorem witness_OnlyResetLeavesTheEnd :
    (State.reset.setRun .halted).ended = true ∧ (State.reset.raise (.unknownKey 16)).ended = true ∧
    Transaction.keyEvent 3 ≠ .reset ∧ (∃ t, transact (.keyEvent 3) (State.reset.setRun .halted) = .next t) :=
  ⟨rfl, rfl, by decide, _, rfl⟩

/-- Both sides of the bound: 0xFFE + 2 fits, 0xFFE + 3 does not, nothing at 0x1000 does. -/
theorem witness_LoadCopiesOrFails :
    (0xFFE : Word).toNat + [1, 2, 3].length > 4096 ∧ (0xFFE : Word).toNat + [1, 2].length ≤ 4096 ∧
    (0x1000 : Word).toNat + ([] : List Byte).length ≤ 4096 ∧
    State.reset.run ≠ .halted ∧ (State.reset.setRun .halted).run = .halted := by decide

theorem witness_KeyEventAndQuitEndTheWait :
    (State.reset.setRun (.awaitingKey 3)).run = .awaitingKey 3 ∧ ∀ r, State.reset.run ≠ .awaitingKey r :=
  ⟨rfl, fun _ h => (nomatch h)⟩

theorem witness_DisplayReads :
    State.reset.mode = .normal ∧ State.reset.dimensions = (64, 32) ∧
    (shows .extended [] State.reset).mode = .extended ∧ (shows .extended [] State.reset).dimensions = (128, 64) ∧
    (∃ b, State.reset.getPixel 63 31 = .next b) ∧ State.reset.getPixel 64 31 = .refused .pixelOutsideGrid ∧
    State.reset.getPixel 63 32 = .refused .pixelOutsideGrid :=
  ⟨rfl, rfl, rfl, rfl, ⟨_, rfl⟩, rfl, rfl⟩

theorem witness_BytesReadAsLastWritten :
    (0xFFF : Word).toNat % 4096 = (0x1FFF : Word).toNat % 4096 ∧
    (0xFFF : Word).toNat % 4096 ≠ (0x000 : Word).toNat % 4096 := by decide

theorem witness_EncodeThenDecode : (Instr.sys 0x0BF).wf = true ∧ (Instr.drw 0xF 0xF 0xF).wf = true := by decide

theorem witness_DecodeThenEncode : decodeWord 0x5AB7 = .ok (.seReg 0xA 0xB) := by decide

theorem witness_IllegalWordsExactly :
    (opOf 0x8128 = 0x8 ∧ nOf 0x8128 = 0x8) ∧ (opOf 0xE19F = 0xE ∧ kkOf 0xE19F = 0x9F) ∧
    (opOf 0xF186 = 0xF ∧ kkOf 0xF186 = 0x86) := by decide

/-- The invariant holds where a step runs: at a call, at the draw of a sprite, at a wide store. -/
theorem witness_StepKeepsTheInvariant :
    (boot 0x2300).Inv ∧ (∃ t, step (boot 0x2300) = .next t ∧ t.sp = 0x54) ∧
    (boot 0xFF55).Inv ∧ (∃ t, step (boot 0xFF55) = .next t ∧ t.pc = 0x202) :=
  ⟨by decide +kernel, step_meets _ (by decide +kernel), by decide +kernel, step_meets _ (by decide +kernel)⟩

theorem witness_TransactionsKeepTheInvariant :
    State.reset.Inv ∧ (∃ t, transact (.load [1] 0x300) State.reset = .next t) ∧ Reachable State.reset :=
  ⟨by decide +kernel, ⟨_, rfl⟩, .constructed⟩

theorem witness_RegistersHaveNoOtherWriter :
    (∃ t, exec (.addReg 0 1) State.reset = .next t) ∧ (Instr.addReg 0 1).writesV 1 = false ∧
    (Instr.addReg 0 1).writesV 0xF = true ∧ (Instr.loadRegs 2).writesV 3 = false ∧ (Instr.loadRegs 2).writesV 2 = true :=
  ⟨⟨_, rfl⟩, by decide⟩

theorem witness_MemoryHasNoOtherWriter :
    (∃ t, exec (.storeRpl 3) State.reset = .next t) ∧ (Instr.storeRpl 3).writesMemory = false :=
  ⟨⟨_, rfl⟩, rfl⟩

/-- Each register changes somewhere. -/
theorem witness_SpecialRegistersHaveNoOtherWriter :
    (∃ t, exec (.ldI 0x300) State.reset = .next t ∧ t.i ≠ State.reset.i) ∧
    (∃ t, exec (.call 0x300) State.reset = .next t ∧ t.sp ≠ State.reset.sp) ∧
    (∃ t, exec (.storeRpl 0) (regs [(0, 1)] State.reset) = .next t ∧ t.rpl ≠ (regs [(0, 1)] State.reset).rpl) ∧
    (∃ t, exec (.ldDt 0) (regs [(0, 1)] State.reset) = .next t ∧ t.dt ≠ (regs [(0, 1)] State.reset).dt) ∧
    (∃ t, exec (.ldSt 0) (regs [(0, 1)] State.reset) = .next t ∧ t.st ≠ (regs [(0, 1)] State.reset).st) ∧
    (∃ t, exec .high State.reset = .next t ∧ t.mode ≠ State.reset.mode) ∧
    (∃ t, exec .exit State.reset = .next t ∧ t.run ≠ State.reset.run) :=
  ⟨⟨_, rfl, by decide⟩, ⟨_, rfl, by decide +kernel⟩, ⟨_, rfl, by decide +kernel⟩, ⟨_, rfl, by decide +kernel⟩,
    ⟨_, rfl, by decide +kernel⟩, ⟨_, rfl, by decide⟩, ⟨_, rfl, by decide⟩⟩

theorem witness_DirtyCountsDisplayUpdates :
    (∃ t, exec .cls State.reset = .next t ∧ t.dirty = 1) ∧ Instr.cls.updatesDisplay = true ∧
    (∃ t, exec (.jp 0) State.reset = .next t ∧ t.dirty = 0) ∧ (Instr.jp 0).updatesDisplay = false :=
  ⟨⟨_, rfl, rfl⟩, rfl, ⟨_, rfl, rfl⟩, rfl⟩

theorem witness_RplIsReadOnlyByItsLoad :
    (∀ x, Instr.storeRpl 3 ≠ .loadRpl x) ∧ (∃ t, exec (.storeRpl 3) State.reset = .next t) :=
  ⟨fun _ h => (nomatch h), _, rfl⟩

theorem witness_SoundTimerAndDirtyAreNeverRead : ∃ t, exec (.ldSt 0) State.reset = .next t := ⟨_, rfl⟩

theorem witness_SysIsNoOp :
    isListedSystemByte ((0x0DF : Addr).extractLsb' 0 8) = false ∧ isListedSystemByte ((0x000 : Addr).extractLsb' 0 8) = false := by
  decide

theorem witness_ReturnPopsTheAddress : (State.reset.setSp 1).sp.toNat < 2 ∧ 2 ≤ (State.reset.setSp 2).sp.toNat := by
  decide

theorem witness_ScdScrollsDown :
    State.reset.fb.shaped State.reset.mode.width State.reset.mode.height ∧
    (0 < State.reset.mode.width ∧ 2 < State.reset.mode.height ∧ ¬ 2 < (2 : Nibble).toNat ∧ 1 < (2 : Nibble).toNat) := by
  decide +kernel

/-- In both modes; columns 3 and 4, and columns `W - 5` and `W - 4`, lie on the two sides of the clauses. -/
theorem witness_ScrAndSclScrollSideways :
    State.reset.fb.shaped State.reset.mode.width State.reset.mode.height ∧
    (shows .extended [] State.reset).fb.shaped (shows .extended [] State.reset).mode.width
      (shows .extended [] State.reset).mode.height ∧
    (59 + 4 < State.reset.mode.width ∧ ¬ 60 + 4 < State.reset.mode.width) := by decide +kernel

theorem witness_CallPushesTheAddress :
    0xFD < (State.reset.setSp 0xFE).sp.toNat ∧ (State.reset.setSp 0xFD).sp.toNat ≤ 0xFD := by decide

theorem witness_CallThenReturnComesBack :
    (boot 0x2300 (bytes [(0x301, 0xEE)])).run = .running ∧
    decodeWord (boot 0x2300 (bytes [(0x301, 0xEE)])).fetchWord = .ok (.call 0x300) ∧
    (boot 0x2300 (bytes [(0x301, 0xEE)])).sp.toNat ≤ 0xFD ∧
    (∃ t, step (boot 0x2300 (bytes [(0x301, 0xEE)])) = .next t ∧ decodeWord t.fetchWord = .ok .ret) :=
  ⟨rfl, by decide +kernel, by decide +kernel, step_meets _ (by decide +kernel)⟩

/-- L1.1. -/
theorem witness_AddImmediateWrapsWithoutFlag :
    (0x80 : Byte).toNat + (0x80 : Byte).toNat = 256 ∧ ∃ t u, exec (.addImm 3 0x80) (regs [(3, 0x2A)] State.reset) = .next t ∧
      exec (.addImm 3 0x80) t = .next u := ⟨by decide, _, _, rfl, rfl⟩

theorem witness_CopyAndLogic : (0xF : RegIx) = 0xF ∧ (0 : RegIx) ≠ 0xF := by decide

/-- The carry clause on its two sides: 255 and 256. -/
theorem witness_AddSetsCarry :
    (0x2 : RegIx) ≠ 0xF ∧ (0x80 : Byte).toNat + (0x80 : Byte).toNat > 255 ∧
    ¬ (0x7F : Byte).toNat + (0x80 : Byte).toNat > 255 := by decide

/-- The flag's clause on its two sides: greater, and equal. -/
theorem witness_SubtractSetsNoBorrow :
    (0x0 : RegIx) ≠ 0xF ∧ (0x05 : Byte).toNat < (0x06 : Byte).toNat ∧ ¬ (0x05 : Byte).toNat < (0x05 : Byte).toNat := by
  decide

theorem witness_ShiftsSetTheBitShiftedOut : (0xE : RegIx) ≠ 0xF := by decide

theorem witness_RndMasksTheSuppliedByte :
    ({ State.reset with rndInputs := [0xA7] } : State).rndInputs = 0xA7 :: [] ∧ State.reset.rndInputs = [] := ⟨rfl, rfl⟩

/-- W1's state: the grid has the mode's shape, one pixel is under a lit sprite pixel and one is not; the grid is dark. -/
theorem witness_DrwTogglesTheSpritesPixels :
    let s : State := { regs [(0, 62)] (bytes [(0x300, 0xF0)] State.reset) with i := 0x300 }
    s.fb.shaped s.mode.width s.mode.height ∧ s.spriteLights 0 1 1 0 0 ∧ ¬ s.spriteLights 0 1 1 0 1 ∧
    (∀ u v, s.spriteLights 0 1 1 u v → s.fb.pixel u v = false) :=
  ⟨by decide +kernel, ⟨0, 2, by decide, by decide, by decide +kernel, by decide +kernel, by decide +kernel⟩,
    fun ⟨r, _, hr, _, _, hv, _⟩ => by
      have h1 : r < 1 := hr
      obtain rfl : r = 0 := by omega
      exact absurd hv (by decide +kernel),
    fun _ _ _ => Grid.blank_pixel _ _ _ _⟩

/-- The same state with the grid's pixel (0, 0) lit meets the clause for a collision. -/
theorem witness_DrwTogglesTheSpritesPixels_collision :
    let s : State := { regs [(0, 62)] (bytes [(0x300, 0xF0)] (shows .normal [(0, 0)] State.reset)) with i := 0x300 }
    s.spriteLights 0 1 1 0 0 ∧ s.fb.pixel 0 0 = true :=
  ⟨⟨0, 2, by decide, by decide, by decide +kernel, by decide +kernel, by decide +kernel⟩, by decide +kernel⟩

/-- A dark grid, and one that is lit under the whole sprite; also `VF` as a coordinate, where it keeps its value 0. -/
theorem witness_DrawingTwiceRestores :
    let s : State := { regs [(0, 62)] (bytes [(0x300, 0xF0)] State.reset) with i := 0x300 }
    s.fb.shaped s.mode.width s.mode.height ∧
    (∃ t u, exec (.drw 0 1 1) s = .next t ∧ t.getV 0 = s.getV 0 ∧ t.getV 1 = s.getV 1 ∧ exec (.drw 0 1 1) t = .next u) ∧
    (∃ t u, exec (.drw 0xF 1 1) s = .next t ∧ t.getV 0xF = s.getV 0xF ∧ t.getV 1 = s.getV 1 ∧
      exec (.drw 0xF 1 1) t = .next u) ∧
    (s.spriteLights 0 1 1 0 0 ∧ s.fb.pixel 0 0 = false) ∧ (∀ a b, s.spriteLights 0 1 1 a b → s.fb.pixel a b = false) :=
  ⟨by decide +kernel, ⟨_, _, rfl, by decide +kernel, by decide +kernel, rfl⟩,
    ⟨_, _, rfl, by decide +kernel, by decide +kernel, rfl⟩,
    ⟨⟨0, 2, by decide, by decide, by decide +kernel, by decide +kernel, by decide +kernel⟩, by decide +kernel⟩,
    fun _ _ _ => Grid.blank_pixel _ _ _ _⟩

theorem witness_DrawingTwiceRestores_lit :
    let s : State := { bytes [(0x300, 0x80)] (shows .normal [(0, 0)] State.reset) with i := 0x300 }
    s.fb.shaped s.mode.width s.mode.height ∧ (∃ t, exec (.drw 0 1 1) s = .next t ∧ t.getV 0 = s.getV 0) ∧
    (s.spriteLights 0 1 1 0 0 ∧ s.fb.pixel 0 0 = true) ∧ (∀ a b, s.spriteLights 0 1 0 a b → s.fb.pixel a b = true) :=
  ⟨by decide +kernel, ⟨_, rfl, by decide +kernel⟩,
    ⟨⟨0, 0, by decide, by decide, by decide +kernel, by decide +kernel, by decide +kernel⟩, by decide +kernel⟩,
    fun _ _ ⟨_, _, hr, _⟩ => absurd hr (Nat.not_lt_zero _)⟩

theorem witness_KeySkips :
    15 < ((regs [(5, 16)] State.reset).getV 5).toNat ∧ ((regs [(5, 15)] State.reset).getV 5).toNat < 16 ∧
    (State.reset.present (keysDown [15]) 0).keyInputs = keysDown [15] :: [] ∧ State.reset.keyInputs = [] :=
  ⟨by decide +kernel, by decide +kernel, rfl, rfl⟩

/-- Registers 0 and `x` lie in the range, register `x + 1` does not. -/
theorem witness_bulk_transfers :
    (0 : RegIx).toNat ≤ (2 : RegIx).toNat ∧ (2 : RegIx).toNat ≤ (2 : RegIx).toNat ∧ ¬ (3 : RegIx).toNat ≤ (2 : RegIx).toNat := by
  decide

/-- `RND`, both key instructions with key 15, an illegal word, and a block that has ended. -/
theorem witness_HostStepTakesItsInputs :
    (boot 0xC30F).run = .running ∧ decodeWord (boot 0xC30F).fetchWord = .ok (.rnd 3 0x0F) ∧
    decodeWord (boot 0xE59E (regs [(5, 15)])).fetchWord = .ok (.skpr 5) ∧
    decodeWord (boot 0xE5A1 (regs [(5, 15)])).fetchWord = .ok (.skup 5) ∧
    ((boot 0xE59E (regs [(5, 15)])).getV 5).toNat < 16 ∧
    decodeWord (boot 0x8008).fetchWord = .error (.unknownAlu 0x8008) ∧ (State.reset.setRun .halted).run ≠ .running :=
  ⟨rfl, by decide +kernel, by decide +kernel, by decide +kernel, by decide +kernel, by decide +kernel, by decide⟩

/-- What the host's step leaves in `Run`. -/
theorem host_step_meets {s : State} {k : KeySample} {b : Byte} (r : Run)
    (h : steps (s.present k b) (fun t => decide (t.run = r)) = true) :
    ∃ t, transact (.step k b) s = .next t ∧ t.run = r := by
  obtain ⟨t, ht, hr⟩ := step_meets _ h
  exact ⟨_, (transact_step s ht).1, hr⟩

/-- Each run state a step can leave, and both sides of `load`'s bound. -/
theorem witness_TransactionsReturnTheirOutputs :
    (∃ t, transact (.step (keysDown []) 0) (boot 0x00E0) = .next t ∧ t.run = .running) ∧
    (∃ t, transact (.step (keysDown []) 0) (boot 0xF30A) = .next t ∧ t.run = .awaitingKey 3) ∧
    (∃ t, transact (.step (keysDown []) 0) (boot 0x00FD) = .next t ∧ t.run = .halted) ∧
    (∃ t, transact (.step (keysDown []) 0) (boot 0x8008) = .next t ∧ t.run = .faulted (.unknownOpcode 0x8008)) ∧
    (4096 < (0xFFE : Word).toNat + [(1 : Byte), 2, 3].length ∧ (0xFFE : Word).toNat + [(1 : Byte), 2].length ≤ 4096) :=
  ⟨host_step_meets _ (by decide +kernel), host_step_meets _ (by decide +kernel), host_step_meets _ (by decide +kernel),
    host_step_meets _ (by decide +kernel), by decide⟩

end Sys2Proof.Tests
end

/-!
The state's invariant and who writes and reads what (10_state.md). `exec_frame` says once which fields each instruction
may change; a statement about a single field follows from it and from the shared operations' own lemmas.
-/

namespace Sys2Proof

open Sys2Proof.Machine

/-- The state `s` with the fields that the instruction may change taken from `t` and its display update counted (R20 to
R31). -/
def Instr.frame (s t : State) : Instr → State
  | .cls | .scd _ | .scr | .scl => { s with fb := t.fb, dirty := s.dirty + 1 }
  | .low | .high => { s with mode := t.mode, fb := t.fb, dirty := s.dirty + 1 }
  | .drw _ _ _ => { s with v := t.v, fb := t.fb, dirty := s.dirty + 1 }
  | .sys _ => s
  | .exit | .ldKey _ => { s with run := t.run }
  | .jp _ | .jpI _ | .seImm _ _ | .sneImm _ _ | .seReg _ _ | .sneReg _ _ => { s with pc := t.pc }
  | .ret => { s with pc := t.pc, sp := t.sp, run := t.run }
  | .call _ => { s with mem := t.mem, pc := t.pc, sp := t.sp, run := t.run }
  | .skpr _ | .skup _ => { s with pc := t.pc, run := t.run, keyInputs := t.keyInputs, draws := t.draws }
  | .rnd _ _ => { s with v := t.v, rndInputs := t.rndInputs, draws := t.draws }
  | .ldImm _ _ | .addImm _ _ | .ldReg _ _ | .orReg _ _ | .andReg _ _ | .xorReg _ _ => { s with v := t.v }
  | .addReg _ _ | .subReg _ _ | .subnReg _ _ | .shr _ | .shl _ => { s with v := t.v }
  | .ldFromDt _ | .loadRegs _ | .loadRpl _ => { s with v := t.v }
  | .ldI _ | .addI _ | .ldF _ | .ldHf _ => { s with i := t.i }
  | .ldDt _ => { s with dt := t.dt }
  | .ldSt _ => { s with st := t.st }
  | .bcd _ | .storeRegs _ => { s with mem := t.mem }
  | .storeRpl _ => { s with rpl := t.rpl }

end Sys2Proof

namespace Sys2Proof.Machine

/-! ## What every instruction and every step can do -/

theorem State.keySkip_frame (s : State) (want : Bool) (b : Byte) :
    s.keySkip want b = { s with
      pc := (s.keySkip want b).pc, run := (s.keySkip want b).run,
      keyInputs := (s.keySkip want b).keyInputs, draws := (s.keySkip want b).draws } := by
  obtain ⟨-, h⟩ | ⟨-, h⟩ := s.keySkip_cases want b <;> rw [h]
  · rfl
  · rw [State.skipIf_eq, s.takeKeys_eq]; rfl

/-- An instruction changes nothing outside its frame. -/
theorem exec_frame {i : Instr} {s t : State} (h : exec i s = .next t) : t = i.frame s t := by
  cases i with
  | ret | call a => cases h; split <;> rfl
  | skpr x => cases h; exact s.keySkip_frame true (s.getV x)
  | skup x => cases h; exact s.keySkip_frame false (s.getV x)
  | rnd x kk => cases h; rw [s.takeRandom_eq]; rfl
  | storeRegs x => cases h; exact (storeLoop_frame s (regsUpTo x)).1
  | loadRegs x => cases h; exact (loadLoop_spec s (regsUpTo x)).1
  | storeRpl x => cases h; exact (storeRplLoop_spec s (regsUpTo x)).1
  | loadRpl x => cases h; exact (loadRplLoop_spec s (regsUpTo x)).1
  | _ => cases h; rfl

/-- A step runs the fetched instruction, raises the fault of an illegal word, or idles outside `Running` (R86). -/
theorem step_cases {s t : State} (h : step s = .next t) :
    (∃ i, decodeWord s.fetchWord = .ok i ∧ exec i s.advancePc = .next t) ∨
    t = s.advancePc.raise (.unknownOpcode s.fetchWord) ∨ t = s := by
  unfold step at h
  split at h
  · unfold execWord at h
    split at h
    · next i hi => exact .inl ⟨i, hi, h⟩
    · cases h; exact .inr (.inl rfl)
  all_goals cases h; exact .inr (.inr rfl)

/-! ## The invariant: memory in canonical form -/

theorem State.memWrite_wf {s : State} (hs : s.mem.wf) (a : Word) (b : Byte) : (s.memWrite a b).mem.wf :=
  Memory.wf_write hs (busAddr_lt a) b

/-- Only the three storing instructions touch memory, and each stores single bytes (R56). -/
theorem exec_keeps_memory_wf {i : Instr} {s t : State} (h : exec i s = .next t) (hs : s.mem.wf) : t.mem.wf := by
  cases i with
  | call a =>
    cases h
    split
    · exact hs
    · exact State.memWrite_wf (State.memWrite_wf hs ..) ..
  | bcd x => cases h; exact State.memWrite_wf (State.memWrite_wf (State.memWrite_wf hs ..) ..) ..
  | storeRegs x =>
    cases h
    exact List.foldlRecOn (motive := fun u : State => u.mem.wf) _ _ hs fun _ hu _ _ => State.memWrite_wf hu ..
  | _ => rw [exec_frame h]; exact hs

/-! ## The invariant: the grid has the mode's size -/

theorem Mode.hScroll_le_width (m : Mode) : hScroll ≤ m.width := by cases m <;> decide

theorem Mode.nibble_le_height (m : Mode) (n : Nibble) : n.toNat ≤ m.height := by
  have := n.isLt
  cases m <;> simp only [Mode.height] <;> omega

/-- Each of the seven display instructions leaves a grid of the mode's size (R171 to R178). -/
theorem exec_keeps_grid_shape {i : Instr} {s t : State} (h : exec i s = .next t)
    (hs : s.fb.shaped s.mode.width s.mode.height) : t.fb.shaped t.mode.width t.mode.height := by
  cases i with
  | cls => cases h; exact Grid.blank_shaped ..
  | low => cases h; exact Grid.blank_shaped ..
  | high => cases h; exact Grid.blank_shaped ..
  | scd n => cases h; exact Grid.scrolledDown_shaped hs (s.mode.nibble_le_height n)
  | scr => cases h; exact Grid.scrolledRight_shaped hs s.mode.hScroll_le_width
  | scl => cases h; exact Grid.scrolledLeft_shaped hs s.mode.hScroll_le_width
  | drw x y n => cases h; exact (s.drawn_spec hs x y n).2.2
  | _ => rw [exec_frame h]; exact hs

/-! ## The invariant: `SP` is even -/

/-- `CALL` and `RETURN` move `SP` by 2, or fault and leave it (R122, R102). -/
theorem exec_keeps_sp_even {i : Instr} {s t : State} (h : exec i s = .next t) (hs : s.sp.toNat % 2 = 0) :
    t.sp.toNat % 2 = 0 := by
  cases i with
  | call a =>
    cases h
    split
    · exact hs
    · show (s.sp + 2).toNat % 2 = 0
      bv_omega
  | ret =>
    cases h
    split
    · exact hs
    · show (s.sp - 1 - 1).toNat % 2 = 0
      bv_omega
  | _ => rw [exec_frame h]; exact hs

/-! ## Steps and transactions keep the invariant -/

theorem exec_keeps_inv {i : Instr} {s t : State} (h : exec i s = .next t) (hs : s.Inv) : t.Inv := by
  obtain ⟨hmem, hgrid, hsp⟩ := hs
  exact ⟨exec_keeps_memory_wf h hmem, exec_keeps_grid_shape h hgrid, exec_keeps_sp_even h hsp⟩

theorem step_keeps_inv {s t : State} (h : step s = .next t) (hs : s.Inv) : t.Inv := by
  obtain ⟨i, -, hi⟩ | rfl | rfl := step_cases h
  · exact exec_keeps_inv hi hs
  · exact hs
  · exact hs

theorem State.load_keeps_inv {s : State} (hs : s.Inv) (bytes : List Byte) (offset : Word) :
    (s.load bytes offset).Inv := by
  obtain ⟨hmem, hrest⟩ := hs
  obtain ⟨hfits, h, -⟩ | ⟨-, h, -⟩ := load_cases s bytes offset <;> rw [h]
  · exact ⟨Memory.wf_copyIn hmem hfits, hrest⟩
  · unfold State.raiseToHost
    split <;> exact ⟨hmem, hrest⟩

theorem State.keyEvent_keeps_inv {s : State} (hs : s.Inv) (k : KeyId) : (s.keyEvent k).Inv := by
  unfold State.keyEvent
  split <;> exact hs

theorem State.quit_keeps_inv {s : State} (hs : s.Inv) : s.quit.Inv := by
  unfold State.quit
  split <;> exact hs

theorem State.resetBlock_keeps_inv {s : State} (hs : s.Inv) : s.resetBlock.Inv := by
  obtain ⟨hmem, hgrid, -⟩ := hs
  exact ⟨hmem, hgrid, show spReset.toNat % 2 = 0 by decide⟩

theorem transact_keeps_inv {c : Transaction} {s t : State} (h : transact c s = .next t) (hs : s.Inv) : t.Inv := by
  cases c with
  | step keys rnd =>
    simp only [transact, stepWith] at h
    split at h
    · next u hu =>
      cases h
      have hpresent : (s.present keys rnd).Inv := hs
      have hu' : u.Inv := step_keeps_inv hu hpresent
      exact hu'
    all_goals cases h
  | tickTimers => cases h; exact hs
  | load bytes offset => cases h; exact State.load_keeps_inv hs bytes offset
  | reset => cases h; exact State.resetBlock_keeps_inv hs
  | keyEvent k => cases h; exact State.keyEvent_keeps_inv hs k
  | quit => cases h; exact State.quit_keeps_inv hs

/-- Settles O20, from the lemmas of each part's initial value. -/
theorem constructionMeetsTheInvariant : Obligations.ConstructionMeetsTheInvariant :=
  ⟨Memory.wf_nil, Grid.blank_shaped .., by decide⟩

/-- Settles O21: a step is an instruction, a fault or idle, and an instruction keeps each of the invariant's three parts. -/
theorem stepKeepsTheInvariant : Obligations.StepKeepsTheInvariant :=
  fun _ _ hs h => step_keeps_inv h hs

/-- Settles O22, by induction on how a state is reached. -/
theorem transactionsKeepTheInvariant : Obligations.TransactionsKeepTheInvariant := by
  refine ⟨fun _ _ _ hs h => transact_keeps_inv h hs, fun s hr => ?_⟩
  induction hr with
  | constructed => exact constructionMeetsTheInvariant
  | next c _ h ih => exact transact_keeps_inv h ih

/-- Settles O8: the register files are constant vectors, memory is empty, the grid is dark. -/
theorem constructedState : Obligations.ConstructedState := by
  refine ⟨fun r => ?_, fun k => ?_, rfl, rfl, rfl, rfl, rfl, fun a => rfl, rfl, rfl, Grid.blank_shaped .., fun x y => ?_,
    rfl, rfl⟩
  · simp [State.getV, State.reset]
  · simp [State.getRpl, State.reset]
  · exact Grid.blank_pixel ..

/-! ## Who writes what -/

/-- Settles O23: a destination is written by `setV`, by `writeWithFlag` or by one of the two load loops; the other
instructions have no general register in their frame. -/
theorem registersHaveNoOtherWriter : Obligations.RegistersHaveNoOtherWriter := by
  intro i s t r h hw
  cases i with
  | ldImm x | addImm x | ldFromDt x | ldReg x | orReg x | andReg x | xorReg x =>
    cases h
    exact (onlyRegs_setV s x _).1 r (by simpa [Instr.writesV] using hw)
  | addReg x | subReg x | subnReg x | shr x | shl x =>
    cases h
    exact (onlyRegs_writeWithFlag s x _ _).1 r (by simpa [Instr.writesV] using hw)
  | rnd x kk =>
    cases h
    rw [State.getV_setV, if_neg (by simpa [Instr.writesV] using hw), State.getV_takeRandom]
  | drw x y n =>
    cases h
    rw [State.getV_setV, if_neg (by simpa [Instr.writesV] using hw), State.getV_redraw]
  | loadRegs x =>
    cases h
    refine ((loadLoop_spec s (regsUpTo x)).2 r).trans (if_neg ?_)
    simpa [Instr.writesV, mem_regsUpTo] using hw
  | loadRpl x =>
    cases h
    refine ((loadRplLoop_spec s (regsUpTo x)).2 r).trans (if_neg ?_)
    simpa [Instr.writesV, mem_regsUpTo] using hw
  | _ => rw [exec_frame h]; rfl

/-- Settles O25: each clause reads its field off the instruction's frame. -/
theorem specialRegistersHaveNoOtherWriter : Obligations.SpecialRegistersHaveNoOtherWriter := by
  intro i s t h
  rw [exec_frame h]
  cases i <;> simp [Instr.frame]

/-- Settles O26: the count and the grid are read off the instruction's frame. -/
theorem dirtyCountsDisplayUpdates : Obligations.DirtyCountsDisplayUpdates := by
  intro i s t h
  rw [exec_frame h]
  cases i <;> simp [Instr.frame, Instr.updatesDisplay]

/-! ## Who reads what -/

/-- `s` with RPL, `ST` and `Dirty` altered by `f`, `g` and `d`; `id` leaves a field as it is. -/
def State.altered (f : Vector Byte 16 → Vector Byte 16) (g : Byte → Byte) (d : Nat → Nat) (s : State) : State :=
  { s with rpl := f s.rpl, st := g s.st, dirty := d s.dirty }

section

variable (f : Vector Byte 16 → Vector Byte 16) (g : Byte → Byte) (d : Nat → Nat) (s : State)

theorem State.takeRandom_altered : (s.altered f g d).takeRandom = s.takeRandom.altered f g d := by
  unfold State.takeRandom State.altered
  dsimp only
  split <;> rfl

theorem State.takeKeys_altered : (s.altered f g d).takeKeys = s.takeKeys.altered f g d := by
  unfold State.takeKeys State.altered
  dsimp only
  split <;> rfl

/-- A key skip neither reads nor writes the three fields. -/
theorem State.keySkip_altered (want : Bool) (b : Byte) :
    (s.altered f g d).keySkip want b = (s.keySkip want b).altered f g d := by
  unfold State.keySkip
  split
  · rfl
  · rw [State.takeKeys_altered]; rfl

/-- An instruction that updates no display and is none of `LD ST, Vx`, `LD R, Vx`, `LD Vx, R` neither reads nor writes
the three fields. -/
theorem exec_altered {i : Instr} {s t : State} (hd : i.updatesDisplay = false) (hst : ∀ x, i ≠ .ldSt x)
    (hrpl : ∀ x, i ≠ .storeRpl x ∧ i ≠ .loadRpl x) (h : exec i s = .next t) :
    exec i (s.altered f g d) = .next (t.altered f g d) := by
  cases i with
  | cls | scd | scr | scl | low | high | drw => cases hd
  | ldSt x => exact absurd rfl (hst x)
  | storeRpl x => exact absurd rfl (hrpl x).1
  | loadRpl x => exact absurd rfl (hrpl x).2
  | storeRegs x | loadRegs x =>
    cases h
    exact congrArg Host.Outcome.next (List.foldl_hom (State.altered f g d) fun _ _ => rfl)
  | skpr x => cases h; exact congrArg Host.Outcome.next (s.keySkip_altered f g d true (s.getV x))
  | skup x => cases h; exact congrArg Host.Outcome.next (s.keySkip_altered f g d false (s.getV x))
  | rnd x kk =>
    cases h
    exact congrArg (fun u => Host.Outcome.next (u.setV x (s.randomByte &&& kk))) (s.takeRandom_altered f g d)
  | ret | call a => cases h; rw [apply_ite (State.altered f g d)]; rfl
  | _ => cases h; rfl

end

/-- Settles O27: `LD R, Vx` overwrites entries of RPL without reading any, the writers of `ST` and `Dirty` do not look at
RPL, and every other instruction commutes with altering it. -/
theorem rplIsReadOnlyByItsLoad : Obligations.RplIsReadOnlyByItsLoad := by
  intro i s t rpl hi h
  cases i with
  | loadRpl x => exact absurd rfl (hi x)
  | storeRpl x =>
    cases h
    refine ⟨_, rfl, (storeRplLoop_spec _ (regsUpTo x)).1.trans ?_⟩
    rw [(storeRplLoop_spec s (regsUpTo x)).1]
  | cls | scd | scr | scl | low | high | drw | ldSt => cases h; exact ⟨_, rfl, rfl⟩
  | _ => exact ⟨_, exec_altered (fun _ => rpl) id id rfl nofun (fun _ => ⟨nofun, nofun⟩) h, rfl⟩

/-- Settles O28: the writers of `ST` and `Dirty` overwrite or count up without any other use of them, and every other
instruction, the two RPL loops included, commutes with altering them. -/
theorem soundTimerAndDirtyAreNeverRead : Obligations.SoundTimerAndDirtyAreNeverRead := by
  intro i s t st dirty h
  cases i with
  | storeRpl x | loadRpl x =>
    cases h
    exact ⟨_, congrArg Host.Outcome.next
      (List.foldl_hom (State.altered id (fun _ => st) fun _ => dirty) fun _ _ => rfl), rfl⟩
  | cls | scd | scr | scl | low | high | drw | ldSt => cases h; exact ⟨_, rfl, rfl⟩
  | _ => exact ⟨_, exec_altered id (fun _ => st) (fun _ => dirty) rfl nofun (fun _ => ⟨nofun, nofun⟩) h, rfl⟩

end Sys2Proof.Machine

/-!
Memory (20_memory.md): which instructions leave it alone, how its bytes read after a write, and what `load` copies.
-/

namespace Sys2Proof.Machine

/-- An instruction that is none of the three storing ones has no memory in its frame (R56). -/
theorem exec_keeps_mem {i : Instr} {s t : State} (h : exec i s = .next t) (hw : i.writesMemory = false) :
    t.mem = s.mem := by
  rw [exec_frame h]
  cases i with
  | call | bcd | storeRegs => cases hw
  | _ => rfl

/-- The copied byte `k` is the one read at its address. -/
theorem Memory.read_copyIn_inside (m : Memory) (a : Nat) {bytes : List Byte} {k : Nat} {b : Byte}
    (hk : bytes[k]? = some b) : (m.copyIn a bytes).read (a + k) = b := by
  obtain ⟨hlt, rfl⟩ := List.getElem?_eq_some_iff.1 hk
  rw [Memory.read_copyIn, dif_pos (by omega)]
  simp

/-- The copy leaves every address below and above its range. -/
theorem Memory.read_copyIn_outside (m : Memory) {a b : Nat} {bytes : List Byte}
    (hb : b < a ∨ a + bytes.length ≤ b) : (m.copyIn a bytes).read b = m.read b := by
  rw [Memory.read_copyIn, dif_neg (by omega)]

/-- Settles O24: a byte read depends on memory alone, which only the storing instructions have in their frame. -/
theorem memoryHasNoOtherWriter : Obligations.MemoryHasNoOtherWriter :=
  fun _ _ _ h hw a => congrArg (Memory.read · (busAddr a)) (exec_keeps_mem h hw)

/-- Settles O14: the bus address is the address modulo 4096, and memory reads at a bus address what was last written
there. -/
theorem bytesReadAsLastWritten : Obligations.BytesReadAsLastWritten := by
  intro s a b v
  rw [State.memRead_memWrite, ← busAddr_eq, ← busAddr_eq]
  refine ⟨fun hab => ⟨?_, if_pos hab.symm⟩, fun hab => if_neg (Ne.symm hab)⟩
  exact congrArg s.mem.read hab

/-- Settles O10: the two ways a `load` ends exclude each other by the bound; the failing one raises its fault unless the
block is halted, the other is the copy. -/
theorem loadCopiesOrFails : Obligations.LoadCopiesOrFails := by
  intro s bytes offset
  simp only [transact, transactReturn]
  obtain ⟨hfits, hload, hret⟩ | ⟨hpast, hload, hret⟩ := load_cases s bytes offset <;> rw [hload, hret]
  · exact ⟨fun hpast => absurd hfits (by omega), fun _ => ⟨rfl, _, rfl,
      fun _ _ hk => s.mem.read_copyIn_inside offset.toNat hk,
      fun _ ha => s.mem.read_copyIn_outside ha, rfl⟩⟩
  · refine ⟨fun _ => ⟨fun hrun => ?_, fun hrun => ?_, rfl⟩, fun hfits => absurd hpast (by omega)⟩
    · rw [State.raiseToHost_raise hrun]; rfl
    · rw [State.raiseToHost_halted hrun]

end Sys2Proof.Machine

/-!
The encoding (30_encoding.md): the decoder reads back every word the encoder writes, what it reads has no other
significant bits than the word itself, the words it rejects, and how a step uses it.
-/

namespace Sys2Proof

open Sys2Proof.Machine

/-! ## From an instruction to its word and back -/

theorem decodeWord_encode : ∀ i : Instr, i.wf = true → decodeWord (encode i) = .ok i
  | .cls => Laws.RoundTrip.cls
  | .ret => Laws.RoundTrip.ret
  | .scd n => Laws.RoundTrip.scd n
  | .scr => Laws.RoundTrip.scr
  | .scl => Laws.RoundTrip.scl
  | .exit => Laws.RoundTrip.exit
  | .low => Laws.RoundTrip.low
  | .high => Laws.RoundTrip.high
  | .sys nnn => Laws.RoundTrip.sys nnn
  | .jp nnn => Laws.RoundTrip.jp nnn
  | .call nnn => Laws.RoundTrip.call nnn
  | .seImm x kk => Laws.RoundTrip.seImm x kk
  | .sneImm x kk => Laws.RoundTrip.sneImm x kk
  | .seReg x y => Laws.RoundTrip.seReg x y
  | .ldImm x kk => Laws.RoundTrip.ldImm x kk
  | .addImm x kk => Laws.RoundTrip.addImm x kk
  | .ldReg x y => Laws.RoundTrip.ldReg x y
  | .orReg x y => Laws.RoundTrip.orReg x y
  | .andReg x y => Laws.RoundTrip.andReg x y
  | .xorReg x y => Laws.RoundTrip.xorReg x y
  | .addReg x y => Laws.RoundTrip.addReg x y
  | .subReg x y => Laws.RoundTrip.subReg x y
  | .shr x => Laws.RoundTrip.shr x
  | .subnReg x y => Laws.RoundTrip.subnReg x y
  | .shl x => Laws.RoundTrip.shl x
  | .sneReg x y => Laws.RoundTrip.sneReg x y
  | .ldI nnn => Laws.RoundTrip.ldI nnn
  | .jpI nnn => Laws.RoundTrip.jpI nnn
  | .rnd x kk => Laws.RoundTrip.rnd x kk
  | .drw x y n => Laws.RoundTrip.drw x y n
  | .skpr x => Laws.RoundTrip.skpr x
  | .skup x => Laws.RoundTrip.skup x
  | .ldFromDt x => Laws.RoundTrip.ldFromDt x
  | .ldKey x => Laws.RoundTrip.ldKey x
  | .ldDt x => Laws.RoundTrip.ldDt x
  | .ldSt x => Laws.RoundTrip.ldSt x
  | .addI x => Laws.RoundTrip.addI x
  | .ldF x => Laws.RoundTrip.ldF x
  | .ldHf x => Laws.RoundTrip.ldHf x
  | .bcd x => Laws.RoundTrip.bcd x
  | .storeRegs x => Laws.RoundTrip.storeRegs x
  | .loadRegs x => Laws.RoundTrip.loadRegs x
  | .storeRpl x => Laws.RoundTrip.storeRpl x
  | .loadRpl x => Laws.RoundTrip.loadRpl x

/-- The encoder's two bytes are its word, high byte first (R52). -/
theorem decode_encodeBytes_append (i : Instr) (rest : List Byte) :
    decode (encodeBytes i ++ rest) = (decodeWord (encode i)).map fun j => (j, rest) :=
  congrArg (fun w => (decodeWord w).map fun j => (j, rest)) (high_low_bytes (encode i))

/-- Settles O15: one round trip per constructor, on words; the bytes are put together to the word. -/
theorem encodeThenDecode : Obligations.EncodeThenDecode := by
  intro i hi
  have hword : decodeWord (encode i) = .ok i := decodeWord_encode i hi
  exact ⟨hword, fun rest => by rw [decode_encodeBytes_append, hword]; rfl⟩

/-! ## Ignored fields of a word -/

theorem wordXYN_and (op op' : BitVec 4) (x x' y y' : RegIx) (n n' : Nibble) :
    wordXYN op x y n &&& wordXYN op' x' y' n' = wordXYN (op &&& op') (x &&& x') (y &&& y') (n &&& n') := by
  unfold wordXYN
  refine BitVec.and_append.trans (congrArg (· ++ _) ?_)
  exact BitVec.and_append.trans (congrArg (· ++ _) BitVec.and_append)

section
variable (op : BitVec 4) (x y : RegIx) (n : Nibble)

/-- The mask `F0FF` hides `x` (R75). -/
theorem wordXYN_and_F0FF (x' : RegIx) : wordXYN op x y n &&& 0xF0FF = wordXYN op x' y n &&& 0xF0FF := by
  have hmask : (0xF0FF : Word) = wordXYN 0xF 0x0 0xF 0xF := rfl
  simp only [hmask, wordXYN_and, BitVec.ofNat_eq_ofNat, BitVec.and_zero]

/-- The mask `FF0F` hides `y` (R149, R151). -/
theorem wordXYN_and_FF0F (y' : RegIx) : wordXYN op x y n &&& 0xFF0F = wordXYN op x y' n &&& 0xFF0F := by
  have hmask : (0xFF0F : Word) = wordXYN 0xF 0xF 0x0 0xF := rfl
  simp only [hmask, wordXYN_and, BitVec.ofNat_eq_ofNat, BitVec.and_zero]

/-- The mask `FFF0` hides `n` (R79). -/
theorem wordXYN_and_FFF0 (n' : Nibble) : wordXYN op x y n &&& 0xFFF0 = wordXYN op x y n' &&& 0xFFF0 := by
  have hmask : (0xFFF0 : Word) = wordXYN 0xF 0xF 0xF 0x0 := rfl
  simp only [hmask, wordXYN_and, BitVec.ofNat_eq_ofNat, BitVec.and_zero]

end

/-! ## A word of which two fields are known -/

section
variable {w : Word} {op : BitVec 4} (hop : opOf w = op)
include hop

theorem wordXKK_of_op_kk {kk : Byte} (hkk : kkOf w = kk) : wordXKK op (xOf w) kk = w := by
  rw [← hkk, wordXKK_of_op hop]

theorem wordXYN_of_op_y {y : RegIx} (hy : yOf w = y) : wordXYN op (xOf w) y (nOf w) = w := by
  rw [← hy, wordXYN_of_op hop]

theorem wordXYN_of_op_n {n : Nibble} (hn : nOf w = n) : wordXYN op (xOf w) (yOf w) n = w := by
  rw [← hn, wordXYN_of_op hop]

end

theorem yOf_eq_field_of_kkOf (w : Word) : yOf w = (kkOf w).extractLsb' 4 4 := by
  conv_lhs => rw [← wordXKK_fields w, yOf_wordXKK]

theorem kkOf_eq_field_of_nnnOf (w : Word) : kkOf w = (nnnOf w).extractLsb' 0 8 := by
  conv_lhs => rw [← wordNNN_fields w, kkOf_wordNNN]

/-! ## From a word to its instruction and back -/

/-- The instruction is well-formed, and its own word agrees with `w` in every bit its row does not ignore. -/
def Instr.Reads (i : Instr) (w : Word) : Prop :=
  i.wf = true ∧ encode i &&& significantBits i = w &&& significantBits i

/-- Whatever the decoding `r` answers reads `w`. -/
def OnlyReads (r : Except DecodeError Instr) (w : Word) : Prop := ∀ i, r = .ok i → i.Reads w

theorem OnlyReads.ok {i : Instr} {w : Word} (h : i.Reads w) : OnlyReads (.ok i) w := fun _ hi => by cases hi; exact h

theorem OnlyReads.error {e : DecodeError} {w : Word} : OnlyReads (.error e) w := nofun

/-- A row of the decoder whose instruction encodes the very word it is read from. -/
theorem OnlyReads.ok_of_encode_eq {i : Instr} {w : Word} (hwf : i.wf = true) (h : encode i = w) :
    OnlyReads (.ok i) w := .ok ⟨hwf, by rw [h]⟩

/-- A decoder tries its rows one after the other. -/
theorem OnlyReads.ite {c : Prop} [Decidable c] {row rows : Except DecodeError Instr} {w : Word}
    (hrow : c → OnlyReads row w) (hrows : ¬c → OnlyReads rows w) : OnlyReads (if c then row else rows) w := by
  split
  · next hc => exact hrow hc
  · next hc => exact hrows hc

/-- The 0x0 words ignore bits 11:8 (R75). -/
theorem wordXKK_zero_and_F0FF {w : Word} {kk : Byte} (hop : opOf w = 0x0) (hkk : kkOf w = kk) :
    wordXKK 0x0 0x0 kk &&& 0xF0FF = w &&& 0xF0FF := by
  conv_rhs => rw [← wordXYN_of_op hop]
  rw [← hkk, ← y_n_fields, ← wordXYN_eq]
  exact wordXYN_and_F0FF ..

/-- A low byte that the rows of the 0x0 family leave to `SYS` (R75, R100). -/
theorem isListedSystemByte_eq_false {kk : Byte} (hC : kk.extractLsb' 4 4 ≠ 0xC) (hE0 : kk ≠ 0xE0) (hEE : kk ≠ 0xEE)
    (hFB : kk ≠ 0xFB) (hFC : kk ≠ 0xFC) (hFD : kk ≠ 0xFD) (hFE : kk ≠ 0xFE) (hFF : kk ≠ 0xFF) :
    isListedSystemByte kk = false := by
  simp only [isListedSystemByte, Bool.or_eq_false_iff, beq_eq_false_iff_ne, and_assoc]
  exact ⟨hC, hE0, hEE, hFB, hFC, hFD, hFE, hFF⟩

theorem decodeSystem_reads {w : Word} (hop : opOf w = 0x0) : (decodeSystem w).Reads w := by
  unfold decodeSystem
  split_ifs with hC hE0 hEE hFB hFC hFD hFE hFF
  · refine ⟨rfl, ?_⟩
    conv_rhs => rw [← wordXYN_of_op_y hop hC]
    exact wordXYN_and_F0FF ..
  · exact ⟨rfl, wordXKK_zero_and_F0FF hop hE0⟩
  · exact ⟨rfl, wordXKK_zero_and_F0FF hop hEE⟩
  · exact ⟨rfl, wordXKK_zero_and_F0FF hop hFB⟩
  · exact ⟨rfl, wordXKK_zero_and_F0FF hop hFC⟩
  · exact ⟨rfl, wordXKK_zero_and_F0FF hop hFD⟩
  · exact ⟨rfl, wordXKK_zero_and_F0FF hop hFE⟩
  · exact ⟨rfl, wordXKK_zero_and_F0FF hop hFF⟩
  · have hsys : encode (.sys (nnnOf w)) = w := wordNNN_of_op hop
    refine ⟨?_, by rw [hsys]⟩
    rw [yOf_eq_field_of_kkOf] at hC
    rw [Instr.wf, ← kkOf_eq_field_of_nnnOf, isListedSystemByte_eq_false hC hE0 hEE hFB hFC hFD hFE hFF, Bool.not_false]

/-- `SHR` and `SHL` words ignore `y` (R149, R151). -/
theorem wordXYN_zero_and_FF0F {w : Word} {op : BitVec 4} {n : Nibble} (hop : opOf w = op) (hn : nOf w = n) :
    wordXYN op (xOf w) 0x0 n &&& 0xFF0F = w &&& 0xFF0F := by
  conv_rhs => rw [← wordXYN_of_op_n hop hn]
  exact wordXYN_and_FF0F ..

/-- The words of 0x5 and 0x9 ignore the low nibble (R79). -/
theorem wordXYN_zero_and_FFF0 {w : Word} {op : BitVec 4} (hop : opOf w = op) :
    wordXYN op (xOf w) (yOf w) 0x0 &&& 0xFFF0 = w &&& 0xFFF0 := by
  conv_rhs => rw [← wordXYN_of_op hop]
  exact wordXYN_and_FFF0 ..

theorem encode_shr (x : RegIx) : encode (.shr x) = wordXYN 0x8 x 0x0 0x6 := (wordXYN_eq 0x8 x 0x0 0x6).symm

theorem encode_shl (x : RegIx) : encode (.shl x) = wordXYN 0x8 x 0x0 0xE := (wordXYN_eq 0x8 x 0x0 0xE).symm

/-- `LD` to `SUB`, `SHR`, `SUBN`, `SHL`, in the order of R76. -/
theorem decodeAlu_onlyReads {w : Word} (hop : opOf w = 0x8) : OnlyReads (decodeAlu w) w := by
  unfold decodeAlu
  iterate 6 refine .ite (fun hn => .ok_of_encode_eq rfl (wordXYN_of_op_n hop hn)) fun _ => ?_
  refine .ite (fun hn => .ok ⟨rfl, by rw [encode_shr]; exact wordXYN_zero_and_FF0F hop hn⟩) fun _ => ?_
  refine .ite (fun hn => .ok_of_encode_eq rfl (wordXYN_of_op_n hop hn)) fun _ => ?_
  refine .ite (fun hn => .ok ⟨rfl, by rw [encode_shl]; exact wordXYN_zero_and_FF0F hop hn⟩) fun _ => ?_
  exact .error

theorem decodeKeyOp_onlyReads {w : Word} (hop : opOf w = 0xE) : OnlyReads (decodeKeyOp w) w := by
  unfold decodeKeyOp
  iterate 2 refine .ite (fun hkk => .ok_of_encode_eq rfl (wordXKK_of_op_kk hop hkk)) fun _ => ?_
  exact .error

theorem decodeMisc_onlyReads {w : Word} (hop : opOf w = 0xF) : OnlyReads (decodeMisc w) w := by
  unfold decodeMisc
  iterate 12 refine .ite (fun hkk => .ok_of_encode_eq rfl (wordXKK_of_op_kk hop hkk)) fun _ => ?_
  exact .error

/-! ## The first level of the decoder -/

section
variable {w : Word}

theorem decodeWord_of_op_0 (h : opOf w = 0x0) : decodeWord w = .ok (decodeSystem w) := by simp [decodeWord, h]
theorem decodeWord_of_op_8 (h : opOf w = 0x8) : decodeWord w = decodeAlu w := by simp [decodeWord, h]
theorem decodeWord_of_op_E (h : opOf w = 0xE) : decodeWord w = decodeKeyOp w := by simp [decodeWord, h]
theorem decodeWord_of_op_F (h : opOf w = 0xF) : decodeWord w = decodeMisc w := by simp [decodeWord, h]

end

/-- Primary nibble by primary nibble (R74); the last arm is left only `0xF`. -/
theorem decodeWord_onlyReads (w : Word) : OnlyReads (decodeWord w) w := by
  unfold decodeWord
  refine .ite (fun h0 => .ok (decodeSystem_reads h0)) fun _ => ?_
  iterate 2 refine .ite (fun hop => .ok_of_encode_eq rfl (wordNNN_of_op hop)) fun _ => ?_
  iterate 2 refine .ite (fun hop => .ok_of_encode_eq rfl (wordXKK_of_op hop)) fun _ => ?_
  refine .ite (fun h5 => .ok ⟨rfl, wordXYN_zero_and_FFF0 h5⟩) fun _ => ?_
  iterate 2 refine .ite (fun hop => .ok_of_encode_eq rfl (wordXKK_of_op hop)) fun _ => ?_
  refine .ite decodeAlu_onlyReads fun _ => ?_
  refine .ite (fun h9 => .ok ⟨rfl, wordXYN_zero_and_FFF0 h9⟩) fun _ => ?_
  iterate 2 refine .ite (fun hop => .ok_of_encode_eq rfl (wordNNN_of_op hop)) fun _ => ?_
  refine .ite (fun hC => .ok_of_encode_eq rfl (wordXKK_of_op hC)) fun _ => ?_
  refine .ite (fun hD => .ok_of_encode_eq rfl (wordXYN_of_op hD)) fun _ => ?_
  refine .ite decodeKeyOp_onlyReads fun _ => ?_
  exact decodeMisc_onlyReads (by bv_omega)

/-- Settles O16: each row of the decoder answers an instruction whose own word is `w` in the fields the row has. -/
theorem decodeThenEncode : Obligations.DecodeThenEncode := decodeWord_onlyReads

/-! ## The words the decoder rejects -/

/-- A chain of rows rejects a word when no row takes it and what follows the rows rejects it. -/
theorem exists_ite_ok_eq_error {c : Prop} [Decidable c] {i : Instr} {rows : Except DecodeError Instr} :
    (∃ e, (if c then .ok i else rows) = .error e) ↔ ¬c ∧ ∃ e, rows = .error e := by
  by_cases hc : c <;> simp [hc]

theorem decodeAlu_rejects_iff (w : Word) :
    (∃ e, decodeAlu w = .error e) ↔ nOf w ∈ [0x8, 0x9, 0xA, 0xB, 0xC, 0xD, 0xF] := by
  have hrest : ∀ n : Nibble, n ∈ [0x8, 0x9, 0xA, 0xB, 0xC, 0xD, 0xF] ↔
      n ∉ [0x0, 0x1, 0x2, 0x3, 0x4, 0x5, 0x6, 0x7, 0xE] := by decide
  rw [hrest]
  simp [decodeAlu, exists_ite_ok_eq_error]

theorem decodeKeyOp_rejects_iff (w : Word) : (∃ e, decodeKeyOp w = .error e) ↔ kkOf w ∉ [0x9E, 0xA1] := by
  simp [decodeKeyOp, exists_ite_ok_eq_error]

theorem decodeMisc_rejects_iff (w : Word) :
    (∃ e, decodeMisc w = .error e) ↔
      kkOf w ∉ [0x07, 0x0A, 0x15, 0x18, 0x1E, 0x29, 0x30, 0x33, 0x55, 0x65, 0x75, 0x85] := by
  simp [decodeMisc, exists_ite_ok_eq_error]

/-- Every other family takes all its words (R75, R80): a rejected word falls through the rows of 13 nibbles. -/
theorem decodeWord_accepts {w : Word} (h8 : opOf w ≠ 0x8) (hE : opOf w ≠ 0xE) (hF : opOf w ≠ 0xF) :
    ¬∃ e, decodeWord w = .error e := by
  simp only [decodeWord, if_neg h8, if_neg hE, exists_ite_ok_eq_error]
  bv_omega

/-- Settles O17, family by family: 0x8, 0xE and 0xF reject the words their rows leave out, and the others none. -/
theorem illegalWordsExactly : Obligations.IllegalWordsExactly := by
  intro w
  by_cases h8 : opOf w = 0x8
  · rw [decodeWord_of_op_8 h8, decodeAlu_rejects_iff]; simp [h8]
  by_cases hE : opOf w = 0xE
  · rw [decodeWord_of_op_E hE, decodeKeyOp_rejects_iff]; simp [hE]
  by_cases hF : opOf w = 0xF
  · rw [decodeWord_of_op_F hF, decodeMisc_rejects_iff]; simp [hF]
  refine iff_of_false (decodeWord_accepts h8 hE hF) ?_
  rintro (⟨hop, -⟩ | ⟨hop, -⟩ | ⟨hop, -⟩) <;> contradiction

/-! ## Ignored fields do not matter -/

/-- A listed 0x0 word decodes as the one with 0 in its ignored bits 11:8 (R75, D5). -/
theorem decodeWord_wordXKK_zero {kk : Byte} (hkk : isListedSystemByte kk = true) (z : RegIx) :
    decodeWord (wordXKK 0x0 z kk) = decodeWord (wordXKK 0x0 0x0 kk) := by
  have hrow : decodeSystem (wordXKK 0x0 z kk) = decodeSystem (wordXKK 0x0 0x0 kk) := by
    unfold decodeSystem
    simp only [yOf_wordXKK, nOf_wordXKK, kkOf_wordXKK]
    split_ifs with hC hE0 hEE hFB hFC hFD hFE hFF
    iterate 8 · rfl
    · rw [isListedSystemByte_eq_false hC hE0 hEE hFB hFC hFD hFE hFF] at hkk
      cases hkk
  rw [decodeWord_of_op_0 (opOf_wordXKK ..), decodeWord_of_op_0 (opOf_wordXKK ..), hrow]

theorem decodeWord_scd (z : RegIx) (n : Nibble) : decodeWord (wordXYN 0x0 z 0xC n) = .ok (.scd n) := by
  have hlisted : isListedSystemByte ((0xC : Nibble) ++ n) = true := by revert n; decide
  rw [wordXYN_eq, decodeWord_wordXKK_zero hlisted, ← wordXYN_eq]
  exact Laws.RoundTrip.scd n rfl

/-- Settles O18: with 0 in the ignored field each word is the instruction's own. -/
theorem ignoredBitsDoNotMatter : Obligations.IgnoredBitsDoNotMatter :=
  ⟨decodeWord_scd,
    fun z => (decodeWord_wordXKK_zero rfl z).trans (decodeWord_encode .cls rfl),
    fun z => (decodeWord_wordXKK_zero rfl z).trans (decodeWord_encode .ret rfl),
    fun z => (decodeWord_wordXKK_zero rfl z).trans (decodeWord_encode .scr rfl),
    fun z => (decodeWord_wordXKK_zero rfl z).trans (decodeWord_encode .scl rfl),
    fun z => (decodeWord_wordXKK_zero rfl z).trans (decodeWord_encode .exit rfl),
    fun z => (decodeWord_wordXKK_zero rfl z).trans (decodeWord_encode .low rfl),
    fun z => (decodeWord_wordXKK_zero rfl z).trans (decodeWord_encode .high rfl),
    fun x y n => by simp [decodeWord],
    fun x y n => by simp [decodeWord],
    fun x y => by simp [decodeWord_of_op_8, decodeAlu],
    fun x y => by simp [decodeWord_of_op_8, decodeAlu]⟩

end Sys2Proof

namespace Sys2Proof.Machine

/-! ## The instruction cycle (R86) -/

section
variable {s t : State}

theorem step_of_running (h : s.run = .running) : step s = execWord s.fetchWord s.advancePc := by
  simp only [step, h]

theorem execWord_of_ok {w : Word} {i : Instr} (h : decodeWord w = .ok i) (s : State) : execWord w s = exec i s := by
  simp only [execWord, h]

theorem execWord_of_error {w : Word} {e : DecodeError} (h : decodeWord w = .error e) (s : State) :
    execWord w s = .next (s.raise (.unknownOpcode w)) := by
  simp only [execWord, h, illegalWord]

theorem stepReturn_of_step (h : step s = .next t) : stepReturn s = stepReturnOf s t := by
  simp only [stepReturn, h]

theorem executedWord_of_running (h : s.run = .running) : s.executedWord = some s.fetchWord := if_pos h

/-- A step that raises no fault returns the executed word with some signal (R241). -/
theorem stepReturnOf_of_not_faulted (h : ∀ f, t.run ≠ .faulted f) :
    ∃ g, stepReturnOf s t = .next (s.executedWord, g) := by
  unfold stepReturnOf
  split
  iterate 3 · exact ⟨_, rfl⟩
  · next f hf => exact absurd hf (h f)

theorem stepReturnOf_of_running (h : t.run = .running) : stepReturnOf s t = .next (s.executedWord, .continue_) := by
  simp only [stepReturnOf, h]

theorem stepReturnOf_of_faulted {f : Fault} (h : t.run = .faulted f) : stepReturnOf s t = .fault f := by
  simp only [stepReturnOf, h]

end

/-- Settles O1: a running step is the execute phase of the fetched word, and what it returns is read off the state it
leaves. -/
theorem stepRunsTheDecodedInstruction : Obligations.StepRunsTheDecodedInstruction := by
  intro s hrun
  have hstep := step_of_running hrun
  refine ⟨toNat_append_bytes .., fun i hi => ?_, fun e he => ?_, fun t ht hnf => ?_, fun t ht hcont => ?_⟩
  · rw [hstep, execWord_of_ok hi]; rfl
  · rw [execWord_of_error he] at hstep
    exact ⟨hstep, (stepReturn_of_step hstep).trans (stepReturnOf_of_faulted rfl)⟩
  · rw [stepReturn_of_step ht, ← executedWord_of_running hrun]
    exact stepReturnOf_of_not_faulted hnf
  · rw [stepReturn_of_step ht, ← executedWord_of_running hrun]
    exact stepReturnOf_of_running hcont

end Sys2Proof.Machine

/-!
The system family (40_system.md): the stack pops of `RETURN`, the display operations without a sprite, and the halt.
Each instruction's decoding is a part of O18, where bits 11:8 are ignored.
-/

namespace Sys2Proof.Machine

/-! ## `RETURN` (R53, R102) -/

section
variable {s : State}

/-- `SP` lowered by at most its value does not borrow, so its stack byte is that far below (R53). -/
theorem State.stackAddr_setSp_sub {b : Byte} (h : b.toNat ≤ s.sp.toNat) :
    (s.setSp (s.sp - b)).stackAddr 0 = BitVec.ofNat 16 (s.sp.toNat - b.toNat) := by
  have hlt := s.sp.isLt
  apply BitVec.eq_of_toNat_eq
  rw [toNat_stackAddr _ 0 (by decide), State.setSp_sp, BitVec.toNat_sub_of_le h, BitVec.toNat_ofNat]
  omega

theorem exec_ret_of_lt (h : s.sp.toNat < 2) : exec .ret s = .next (s.raise (.stackUnderflow s.sp)) :=
  congrArg Host.Outcome.next (if_pos h)

/-- Two pops: the high byte, then the low byte, and control goes to their word (R102). -/
theorem exec_ret_of_le (h : 2 ≤ s.sp.toNat) :
    exec .ret s = .next ((s.setSp (s.sp - 2)).setPc
      (s.memRead (BitVec.ofNat 16 (s.sp.toNat - 1)) ++ s.memRead (BitVec.ofNat 16 (s.sp.toNat - 2)))) := by
  have hsp : s.sp - 1 - 1 = s.sp - 2 := by bv_omega
  have hhi : (s.setSp (s.sp - 1)).stackAddr 0 = BitVec.ofNat 16 (s.sp.toNat - 1) :=
    State.stackAddr_setSp_sub (b := 1) (Nat.le_of_succ_le h)
  have hlo : (s.setSp (s.sp - 2)).stackAddr 0 = BitVec.ofNat 16 (s.sp.toNat - 2) :=
    State.stackAddr_setSp_sub (b := 2) h
  rw [← hhi, ← hlo, ← hsp]
  exact congrArg Host.Outcome.next (if_neg (Nat.not_lt.2 h))

end

/-- Settles O31: below `SP = 2` the fault, from there on two pops. -/
theorem returnPopsTheAddress : Obligations.ReturnPopsTheAddress := by
  obtain ⟨-, -, hdecode, -⟩ := ignoredBitsDoNotMatter
  refine ⟨hdecode, fun s => ⟨exec_ret_of_lt, fun h => ?_⟩⟩
  exact ⟨_, exec_ret_of_le h, toNat_append_bytes .., BitVec.toNat_sub_of_le h, fun _ => rfl, rfl⟩

/-! ## The display operations (R171 to R175) -/

/-- A redraw with a grid of the mode's size, beside its pixels (R30). -/
theorem State.redraw_spec {s : State} {g : Grid} (hg : g.shaped s.mode.width s.mode.height) :
    (s.redraw g).fb.shaped s.mode.width s.mode.height ∧ (s.redraw g).mode = s.mode ∧
      (s.redraw g).dirty = s.dirty + 1 ∧ OnlyDisplay s (s.redraw g) :=
  ⟨hg, rfl, rfl, fun _ => rfl, rfl⟩

/-- `fb_set_mode` (R172): a dark grid of the new mode's size. -/
theorem State.fbSetMode_spec (m : Mode) (s : State) :
    (s.fbSetMode m).mode = m ∧ (s.fbSetMode m).fb.shaped m.width m.height ∧
      (∀ x y, (s.fbSetMode m).fb.pixel x y = false) ∧ (s.fbSetMode m).dirty = s.dirty + 1 ∧
      OnlyDisplay s (s.fbSetMode m) :=
  ⟨rfl, Grid.blank_shaped .., Grid.blank_pixel _ _, rfl, fun _ => rfl, rfl⟩

/-- Settles O32, from the pixels of a grid scrolled down; no more dark rows come in than the grid has. -/
theorem scdScrollsDown : Obligations.ScdScrollsDown := by
  obtain ⟨hdecode, -⟩ := ignoredBitsDoNotMatter
  refine ⟨hdecode, fun s n hg => ⟨_, rfl, fun x y _ hy => Grid.pixel_scrolledDown hg x hy, ?_⟩⟩
  exact State.redraw_spec (Grid.scrolledDown_shaped hg (s.mode.nibble_le_height n))

/-- Settles O33, from the pixels of a grid scrolled right and left: either mode is at least 4 columns wide. -/
theorem scrAndSclScrollSideways : Obligations.ScrAndSclScrollSideways := by
  obtain ⟨-, -, -, hscr, hscl, -⟩ := ignoredBitsDoNotMatter
  refine ⟨hscr, hscl, fun s hg => ⟨⟨_, rfl, ?_, ?_⟩, ⟨_, rfl, ?_, ?_⟩⟩⟩
  · exact fun x y hx hy => Grid.pixel_scrolledRight hg hx hy
  · exact State.redraw_spec (Grid.scrolledRight_shaped hg s.mode.hScroll_le_width)
  · exact fun x y _ hy => Grid.pixel_scrolledLeft hg x hy
  · exact State.redraw_spec (Grid.scrolledLeft_shaped hg s.mode.hScroll_le_width)

/-- Settles O30: the blank grid has the mode's size and no lit pixel. -/
theorem clsDarkensTheGrid : Obligations.ClsDarkensTheGrid := by
  obtain ⟨-, hdecode, -⟩ := ignoredBitsDoNotMatter
  exact ⟨hdecode, fun s => ⟨_, rfl, Grid.blank_pixel _ _, State.redraw_spec (Grid.blank_shaped ..)⟩⟩

/-- Settles O35: both are `fb_set_mode`. -/
theorem lowAndHighSwitchTheMode : Obligations.LowAndHighSwitchTheMode := by
  obtain ⟨-, -, -, -, -, -, hlow, hhigh, -⟩ := ignoredBitsDoNotMatter
  exact ⟨hlow, hhigh, fun s => ⟨⟨_, rfl, s.fbSetMode_spec .normal⟩, ⟨_, rfl, s.fbSetMode_spec .extended⟩⟩⟩

/-! ## `SYS` and `EXIT` -/

/-- Settles O29: an unlisted low byte makes `SYS nnn` well formed, and its word is its own encoding. -/
theorem sysIsNoOp : Obligations.SysIsNoOp := by
  refine ⟨fun nnn h => ?_, fun _ _ => rfl⟩
  have hwf : (Instr.sys nnn).wf = true := by rw [Instr.wf, h, Bool.not_false]
  exact decodeWord_encode (.sys nnn) hwf

section
variable {s : State}

/-- A step outside `Running` changes nothing (R238, R242, R243). -/
theorem step_of_not_running (h : s.run ≠ .running) : step s = .next s := by
  unfold step
  split
  · contradiction
  all_goals rfl

theorem executedWord_of_not_running (h : s.run ≠ .running) : s.executedWord = none := if_neg h

theorem stepReturnOf_of_halted {t : State} (h : t.run = .halted) :
    stepReturnOf s t = .next (s.executedWord, .halted) := by
  simp only [stepReturnOf, h]

/-- A step of a halted block executes no word and signals the halt (R242). -/
theorem stepReturn_of_halted (h : s.run = .halted) : stepReturn s = .next (none, .halted) := by
  have hnr : s.run ≠ .running := by simp [h]
  rw [stepReturn_of_step (step_of_not_running hnr), stepReturnOf_of_halted h, executedWord_of_not_running hnr]

end

/-- Settles O34: `EXIT` only writes `Run`, and a step of a halted block is idle. -/
theorem exitHalts : Obligations.ExitHalts := by
  obtain ⟨-, -, -, -, -, hdecode, -⟩ := ignoredBitsDoNotMatter
  exact ⟨hdecode, fun s => ⟨s.setRun .halted, rfl, rfl, step_of_not_running nofun, stepReturn_of_halted rfl⟩⟩

end Sys2Proof.Machine

/-!
The flow family (41_flow.md): the jumps, the stack push of `CALL` and its round trip with `RETURN`, and the skips.
-/

namespace Sys2Proof.Machine

/-- `s` with its `PC` stored as a return address at `SP`, low byte first (R53); `SP` itself is not raised. -/
def State.pushPc (s : State) : State :=
  (s.memWrite (s.stackAddr 0) (lowByte s.pc)).memWrite (s.stackAddr 1) (highByte s.pc)

/-! ## The stack bytes (R53) -/

section
variable (s : State)

theorem State.stackAddr_eq_ofNat {k : Nat} (hk : k < 65280) :
    s.stackAddr k = BitVec.ofNat 16 (s.sp.toNat + k) := by
  rw [← toNat_stackAddr s k hk, BitVec.ofNat_toNat, BitVec.setWidth_eq]

theorem busAddr_stackAddr_zero_ne_one : busAddr (s.stackAddr 0) ≠ busAddr (s.stackAddr 1) := by
  rw [busAddr_stackAddr s 0 (by decide), busAddr_stackAddr s 1 (by decide)]
  omega

theorem State.memRead_pushPc_low : s.pushPc.memRead (s.stackAddr 0) = lowByte s.pc := by
  rw [State.pushPc, State.memRead_memWrite, if_neg (busAddr_stackAddr_zero_ne_one s)]
  exact (s.memRead_memWrite ..).trans (if_pos rfl)

theorem State.memRead_pushPc_high : s.pushPc.memRead (s.stackAddr 1) = highByte s.pc := by
  rw [State.pushPc, State.memRead_memWrite, if_pos rfl]

theorem onlyMemoryAt_pushPc : OnlyMemoryAt [s.stackAddr 0, s.stackAddr 1] s s.pushPc := by
  refine ⟨fun a ha => ?_, rfl⟩
  have hlow : busAddr a ≠ busAddr (s.stackAddr 0) := ha _ (by simp)
  have hhigh : busAddr a ≠ busAddr (s.stackAddr 1) := ha _ (by simp)
  rw [State.pushPc, State.memRead_memWrite, if_neg hhigh, State.memRead_memWrite, if_neg hlow]

end

/-! ## `CALL` and `RETURN` (R102, R122) -/

section
variable {s : State}

/-- Raised by 2 from at most `0xFD`, `SP` does not wrap (R122, D4). -/
theorem toNat_sp_add_two (h : s.sp.toNat ≤ 0xFD) : (s.sp + 2).toNat = s.sp.toNat + 2 := by bv_omega

theorem exec_call_of_lt (nnn : Addr) (h : 0xFD < s.sp.toNat) :
    exec (.call nnn) s = .next (s.raise (.stackOverflow s.sp)) :=
  congrArg Host.Outcome.next (if_pos h)

/-- The return address is pushed and control goes to `nnn` (R122). -/
theorem exec_call_of_le (nnn : Addr) (h : s.sp.toNat ≤ 0xFD) :
    exec (.call nnn) s = .next ((s.pushPc.setSp (s.sp + 2)).setPc (addrOperand nnn)) :=
  congrArg Host.Outcome.next (if_neg (Nat.not_lt.2 h))

/-- `RETURN` takes back the push of a `CALL` from wherever it is executed: only the two stored bytes are left. -/
theorem exec_ret_of_pushed (h : s.sp.toNat ≤ 0xFD) (a : Word) :
    exec .ret ((s.pushPc.setSp (s.sp + 2)).setPc a) = .next s.pushPc := by
  have hsp : (s.sp + 2).toNat = s.sp.toNat + 2 := toNat_sp_add_two h
  have hback : s.sp + 2 - 2 = s.sp := BitVec.add_sub_cancel ..
  have hhigh : BitVec.ofNat 16 ((s.sp + 2).toNat - 1) = s.stackAddr 1 := by
    rw [s.stackAddr_eq_ofNat (by decide), hsp]; rfl
  have hlow : BitVec.ofNat 16 ((s.sp + 2).toNat - 2) = s.stackAddr 0 := by
    rw [s.stackAddr_eq_ofNat (by decide), hsp]; rfl
  rw [exec_ret_of_le (by rw [State.setPc_sp, State.setSp_sp]; omega)]
  simp only [State.setPc_sp, State.setSp_sp, State.memRead_setPc, State.memRead_setSp, hback, hhigh, hlow,
    State.memRead_pushPc_high, State.memRead_pushPc_low, high_low_bytes]
  rfl

/-- A running step executes the instruction it fetches, with `PC` already advanced (R86). -/
theorem step_of_decodes {i : Instr} (hi : decodeWord s.fetchWord = .ok i) (hrun : s.run = .running) :
    step s = exec i s.advancePc :=
  (step_of_running hrun).trans (execWord_of_ok hi s.advancePc)

end

/-- Settles O38: above `SP = 0xFD` the fault, up to there the push. -/
theorem callPushesTheAddress : Obligations.CallPushesTheAddress := by
  refine ⟨fun nnn => decodeWord_encode (.call nnn) rfl, fun s nnn => ⟨exec_call_of_lt nnn, fun h => ?_⟩⟩
  obtain ⟨hkeeps, -⟩ := onlyMemoryAt_pushPc s
  refine ⟨_, exec_call_of_le nnn h, toNat_stackAddr s 0 (by decide), toNat_stackAddr s 1 (by decide), ?_, ?_, hkeeps,
    toNat_sp_add_two h, toNat_addrOperand nnn, rfl⟩
  · exact (congrArg BitVec.toNat s.memRead_pushPc_low).trans (toNat_lowByte s.pc)
  · exact (congrArg BitVec.toNat s.memRead_pushPc_high).trans (toNat_highByte s.pc)

/-- Settles O39: the `RETURN` leaves the state that the `CALL` pushed from, with the two stack bytes stored. -/
theorem callThenReturnComesBack : Obligations.CallThenReturnComesBack := by
  intro s t nnn hrun hcall hsp hstep hret
  rw [step_of_decodes hcall hrun, exec_call_of_le nnn (s := s.advancePc) hsp] at hstep
  cases hstep
  obtain ⟨hkeeps, -⟩ := onlyMemoryAt_pushPc s.advancePc
  refine ⟨s.advancePc.pushPc, ?_, rfl, rfl, hkeeps, rfl⟩
  exact (step_of_decodes hret hrun).trans (exec_ret_of_pushed (s := s.advancePc) hsp _)

/-! ## Jumps and skips (R120 to R127) -/

theorem onlyPc_setPc (s : State) (a : Word) : OnlyPc s (s.setPc a) := ⟨fun _ => rfl, rfl⟩

/-- A skip on equal bytes (R120, R123, R125). -/
theorem State.skipIf_beq_spec (s : State) (a b : Byte) :
    (s.skipIf (a == b)).pc = (if a = b then s.pc + 2 else s.pc) ∧ OnlyPc s (s.skipIf (a == b)) := by
  refine ⟨?_, onlyPc_setPc s _⟩
  rw [State.skipIf_eq, State.setPc_pc]
  simp only [beq_iff_eq]

/-- A skip on different bytes (R120, R124, R126). -/
theorem State.skipIf_bne_spec (s : State) (a b : Byte) :
    (s.skipIf (a != b)).pc = (if a = b then s.pc else s.pc + 2) ∧ OnlyPc s (s.skipIf (a != b)) := by
  refine ⟨?_, onlyPc_setPc s _⟩
  rw [State.skipIf_eq, State.setPc_pc]
  simp only [bne_iff_ne, ite_not]

/-- Settles O36: the operand is zero-extended. -/
theorem jpGoesToItsAddress : Obligations.JpGoesToItsAddress :=
  ⟨fun nnn => decodeWord_encode (.jp nnn) rfl, fun s nnn => ⟨_, rfl, toNat_addrOperand nnn, onlyPc_setPc s _⟩⟩

/-- Settles O37: the sum with the zero-extended operand, modulo 2^16. -/
theorem jpIndexedAddsTheIndex : Obligations.JpIndexedAddsTheIndex := by
  refine ⟨fun nnn => decodeWord_encode (.jpI nnn) rfl, fun s nnn => ⟨_, rfl, ?_, onlyPc_setPc s _⟩⟩
  rw [State.setPc_pc, BitVec.toNat_add, toNat_addrOperand]

/-- Settles O40: a skip on equal bytes and one on different bytes. -/
theorem skipsOnImmediate : Obligations.SkipsOnImmediate :=
  ⟨fun x kk => decodeWord_encode (.seImm x kk) rfl, fun x kk => decodeWord_encode (.sneImm x kk) rfl,
    fun s x kk => ⟨⟨_, rfl, s.skipIf_beq_spec (s.getV x) kk⟩, ⟨_, rfl, s.skipIf_bne_spec (s.getV x) kk⟩⟩⟩

/-- Settles O41: the decoding is a part of O18, where the low nibble is ignored. -/
theorem skipsOnRegisters : Obligations.SkipsOnRegisters := by
  obtain ⟨-, -, -, -, -, -, -, -, hse, hsne, -⟩ := ignoredBitsDoNotMatter
  exact ⟨hse, hsne, fun s x y => ⟨⟨_, rfl, s.skipIf_beq_spec (s.getV x) (s.getV y)⟩,
    ⟨_, rfl, s.skipIf_bne_spec (s.getV x) (s.getV y)⟩⟩⟩

end Sys2Proof.Machine

/-!
The register and arithmetic family (42_alu.md). Every instruction but `LD I, nnn` ends in one of two writes: `setV`, or
`writeWithFlag`, which writes the flag last (R142). Each write's specification is stated once; an instruction adds the
numbers of its result and of its flag.
-/

namespace Sys2Proof.Machine

/-! ## Writing one register -/

section
variable (s : State)

theorem State.getV_setV_same (x : RegIx) (b : Byte) : (s.setV x b).getV x = b := by
  rw [State.getV_setV, if_pos rfl]

@[simp] theorem State.setV_setV_same (x : RegIx) (b c : Byte) : (s.setV x b).setV x c = s.setV x c := by
  rw [State.setV, State.setV_v, Vector.set_set]; rfl

theorem onlyIndex_setI (a : Word) : OnlyIndex s (s.setI a) := ⟨fun _ => rfl, rfl⟩

/-- An operation that answers equal operands with themselves changes nothing when its two registers are one. -/
theorem State.setV_op_self {op : Byte → Byte → Byte} (hop : ∀ a, op a a = a) {x y : RegIx} (hxy : x = y) :
    s.setV x (op (s.getV x) (s.getV y)) = s := by
  rw [← hxy, hop, State.setV_self]

/-! ## Writing a result and its flag (R22, R142) -/

/-- The result, of number `n`, stays in `V[x]` unless the flag, written last, overwrites it. -/
theorem State.writeWithFlag_spec (x : RegIx) (c : Bool) {b : Byte} {n : Nat} (hb : b.toNat = n) :
    (x ≠ 0xF → ((s.writeWithFlag x b c).getV x).toNat = n) ∧ (s.writeWithFlag x b c).getV 0xF = flagByte c ∧
      OnlyRegs [x, 0xF] s (s.writeWithFlag x b c) := by
  refine ⟨fun hx => ?_, ?_, onlyRegs_writeWithFlag s x b c⟩
  · rw [State.getV_writeWithFlag, if_neg hx, if_pos rfl, hb]
  · rw [State.getV_writeWithFlag, if_pos rfl]

end

/-! ## Numbers of results and flags -/

section
variable (a b : Byte)

theorem toNat_flagByte (c : Bool) : (flagByte c).toNat = c.toNat := by cases c <;> rfl

theorem flagByte_carryFlag : flagByte (carryFlag a b) = if a.toNat + b.toNat > 255 then 1 else 0 := by
  simp only [flagByte, carryFlag, decide_eq_true_eq]

/-- The strict comparison of R148 and R150: equal operands give 0 (C4, D12). -/
theorem flagByte_noBorrowFlag : flagByte (noBorrowFlag a b) = if b.toNat < a.toNat then 1 else 0 := by
  simp only [flagByte, noBorrowFlag, decide_eq_true_eq, gt_iff_lt]

/-- The bit that `SHR` shifts out is the remainder of the halving (R149). -/
theorem toNat_flagByte_shiftRightFlag : (flagByte (shiftRightFlag a)).toNat = a.toNat % 2 := by
  rw [toNat_flagByte, shiftRightFlag, BitVec.getLsbD, Nat.toNat_testBit, pow_zero, Nat.div_one]

/-- The bit that `SHL` shifts out is the carry of the doubling (R151, C7). -/
theorem toNat_flagByte_shiftLeftFlag : (flagByte (shiftLeftFlag a)).toNat = a.toNat / 128 := by
  have ha : a.toNat < 256 := a.isLt
  rw [toNat_flagByte, shiftLeftFlag, BitVec.getLsbD, Nat.toNat_testBit]
  omega

theorem toNat_sub_byte : (a - b).toNat = (256 + a.toNat - b.toNat) % 256 := by bv_omega

theorem toNat_shiftRight_one : (a >>> 1).toNat = a.toNat / 2 := by
  rw [BitVec.toNat_ushiftRight, Nat.shiftRight_one]

theorem toNat_shiftLeft_one : (a <<< 1).toNat = 2 * a.toNat % 256 := by
  rw [BitVec.toNat_shiftLeft, Nat.shiftLeft_eq, pow_one, Nat.mul_comm]

end

/-! ## Immediates -/

/-- Settles O42: a register write and an index write, the latter of the zero-extended operand. -/
theorem loadsOfImmediates : Obligations.LoadsOfImmediates :=
  ⟨fun x kk => decodeWord_encode (.ldImm x kk) rfl, fun nnn => decodeWord_encode (.ldI nnn) rfl, fun s =>
    ⟨fun x kk => ⟨_, rfl, s.getV_setV_same x kk, onlyRegs_setV s x kk⟩,
      fun nnn => ⟨_, rfl, toNat_addrOperand nnn, onlyIndex_setI s _⟩⟩⟩

/-- The second write overwrites the first, so two adds of `x` are one add of both immediates (R141). -/
theorem exec_addImm_addImm (s : State) (x : RegIx) (k l : Byte) :
    exec (.addImm x l) (s.setV x (s.getV x + k)) = .next (s.setV x (s.getV x + (k + l))) := by
  refine congrArg Host.Outcome.next ?_
  rw [State.setV_setV_same, State.getV_setV_same, BitVec.add_assoc]

/-- Settles O43: immediates that sum to 256 are opposite bytes, and adding 0 writes back what the register holds. -/
theorem addImmediateWrapsWithoutFlag : Obligations.AddImmediateWrapsWithoutFlag := by
  refine ⟨fun x kk => decodeWord_encode (.addImm x kk) rfl, fun s x kk => ⟨_, rfl, ?_, onlyRegs_setV s x _⟩, ?_⟩
  · rw [State.getV_setV_same, BitVec.toNat_add]
  · intro s t u x k l hkl ht hu
    have hzero : k + l = 0#8 := by bv_omega
    cases ht
    rw [exec_addImm_addImm, hzero, BitVec.add_zero, State.setV_self] at hu
    cases hu
    rfl

/-! ## Copy and logic -/

/-- Settles O44: one register write each, whose bits are the operation's; `V[x]` with itself gives `V[x]`, or 0 for
`XOR`. -/
theorem copyAndLogic : Obligations.CopyAndLogic := by
  refine ⟨fun x y => ⟨?_, ?_, ?_, ?_⟩, fun s x y => ⟨?_, ?_, ?_, ?_⟩⟩
  · exact decodeWord_encode (.ldReg x y) rfl
  · exact decodeWord_encode (.orReg x y) rfl
  · exact decodeWord_encode (.andReg x y) rfl
  · exact decodeWord_encode (.xorReg x y) rfl
  · exact ⟨_, rfl, s.getV_setV_same x _, onlyRegs_setV s x _, s.setV_op_self (op := fun _ b => b) fun _ => rfl⟩
  · refine ⟨_, rfl, onlyRegs_setV s x _, s.setV_op_self fun _ => BitVec.or_self, fun k => ?_⟩
    rw [State.getV_setV_same, BitVec.getLsbD_or]
  · refine ⟨_, rfl, onlyRegs_setV s x _, s.setV_op_self fun _ => BitVec.and_self, fun k => ?_⟩
    rw [State.getV_setV_same, BitVec.getLsbD_and]
  · refine ⟨_, rfl, onlyRegs_setV s x _, fun hxy => ?_, fun k => ?_⟩ <;> rw [State.getV_setV_same]
    · rw [← hxy]; exact BitVec.xor_self
    · rw [BitVec.getLsbD_xor]

/-! ## Arithmetic and shifts with a flag -/

/-- Settles O45: the sum modulo 256, and its carry as the flag. -/
theorem addSetsCarry : Obligations.AddSetsCarry := by
  refine ⟨fun x y => decodeWord_encode (.addReg x y) rfl, fun s x y => ⟨_, rfl, ?_⟩⟩
  rw [← flagByte_carryFlag]
  exact s.writeWithFlag_spec x _ (BitVec.toNat_add ..)

/-- Settles O46: one difference modulo 256 and one comparison, with the operands in order and swapped. -/
theorem subtractSetsNoBorrow : Obligations.SubtractSetsNoBorrow := by
  refine ⟨fun x y => decodeWord_encode (.subReg x y) rfl, fun x y => decodeWord_encode (.subnReg x y) rfl,
    fun s x y => ⟨⟨_, rfl, ?_⟩, ⟨_, rfl, ?_⟩⟩⟩ <;> rw [← flagByte_noBorrowFlag]
  · exact s.writeWithFlag_spec x _ (toNat_sub_byte (s.getV x) (s.getV y))
  · exact s.writeWithFlag_spec x _ (toNat_sub_byte (s.getV y) (s.getV x))

/-- Settles O47: halving with its remainder and doubling with its carry; that `y` is ignored is a part of O18. -/
theorem shiftsSetTheBitShiftedOut : Obligations.ShiftsSetTheBitShiftedOut := by
  obtain ⟨-, -, -, -, -, -, -, -, -, -, hshr, hshl⟩ := ignoredBitsDoNotMatter
  refine ⟨hshr, hshl, fun s x => ⟨⟨_, rfl, ?_⟩, ⟨_, rfl, ?_⟩⟩⟩
  · rw [← toNat_flagByte_shiftRightFlag]
    exact (s.writeWithFlag_spec x _ (toNat_shiftRight_one _)).imp_right (.imp_left (congrArg BitVec.toNat))
  · rw [← toNat_flagByte_shiftLeftFlag]
    exact (s.writeWithFlag_spec x _ (toNat_shiftLeft_one _)).imp_right (.imp_left (congrArg BitVec.toNat))

/-! ## `RND` (R153, R250) -/

section
variable {s : State}

/-- A presented byte is the one supplied, and only the list of presented bytes moves on. -/
theorem State.random_of_cons {b : Byte} {rest : List Byte} (h : s.rndInputs = b :: rest) :
    s.randomByte = b ∧ s.takeRandom = { s with rndInputs := rest } := by
  simp only [State.randomByte, State.takeRandom, h, and_self]

/-- When no byte is presented the free value is supplied, and only the count of draws moves on. -/
theorem State.random_of_nil (h : s.rndInputs = []) :
    s.randomByte = Config.freeRandom s.draws ∧ s.takeRandom = { s with draws := s.draws + 1 } := by
  simp only [State.randomByte, State.takeRandom, h, and_self]

end

/-- Settles O48: the two ways a byte is supplied, and the frame from the instruction's own. -/
theorem rndMasksTheSuppliedByte : Obligations.RndMasksTheSuppliedByte := by
  refine ⟨fun x kk => decodeWord_encode (.rnd x kk) rfl, fun s x kk =>
    ⟨s.takeRandom.setV x (s.randomByte &&& kk), rfl, fun r rest h => ?_, fun h => ?_, fun r hr => ?_, ?_,
      exec_frame (i := .rnd x kk) rfl⟩⟩
  · obtain ⟨hbyte, htake⟩ := State.random_of_cons h
    rw [State.getV_setV_same, hbyte, htake]
    exact ⟨rfl, rfl, rfl⟩
  · obtain ⟨hbyte, htake⟩ := State.random_of_nil h
    rw [State.getV_setV_same, hbyte, htake]
    exact ⟨rfl, h, rfl⟩
  · rw [(onlyRegs_setV s.takeRandom x _).1 r hr, State.getV_takeRandom]
  · exact s.memRead_takeRandom

end Sys2Proof.Machine

/-!
The drawing family (43_draw.md). `DRW` is read through `spriteLights`, the pixels under lit sprite pixels: one lemma
each for a pixel under the sprite, a pixel beside it, and the two values of the flag. A second draw covers the same
pixels, so the same lemmas describe it.
-/

namespace Sys2Proof.Machine

/-! ## The sprite on the grid (R177, R178) -/

section
variable {s t : State} {x y : RegIx} {n : Nibble}

theorem State.pixel_drawn_of_spriteLights (hg : s.fb.shaped s.mode.width s.mode.height) {u v : Nat}
    (hl : s.spriteLights x y n u v) : (s.drawn x y n).1.pixel u v = !s.fb.pixel u v := by
  obtain ⟨hpixel, -⟩ := s.drawn_spec hg x y n
  rw [hpixel, decide_eq_true ((s.spriteLights_iff x y n u v).1 hl), Bool.xor_true]

theorem State.pixel_drawn_of_not_spriteLights (hg : s.fb.shaped s.mode.width s.mode.height) {u v : Nat}
    (hl : ¬ s.spriteLights x y n u v) : (s.drawn x y n).1.pixel u v = s.fb.pixel u v := by
  obtain ⟨hpixel, -⟩ := s.drawn_spec hg x y n
  rw [hpixel, decide_eq_false (hl ∘ (s.spriteLights_iff x y n u v).2), Bool.xor_false]

theorem State.drawn_collides_iff (hg : s.fb.shaped s.mode.width s.mode.height) :
    (s.drawn x y n).2 = true ↔ ∃ u v, s.spriteLights x y n u v ∧ s.fb.pixel u v = true := by
  obtain ⟨-, hcollision, -⟩ := s.drawn_spec hg x y n
  rw [hcollision, decide_eq_true_iff]
  simp only [s.spriteLights_iff]
  constructor
  · rintro ⟨r, hr, c, hc, hbit, hlit⟩
    exact ⟨_, _, ⟨r, hr, rfl, c, hc, rfl, hbit⟩, hlit⟩
  · rintro ⟨_, _, ⟨r, hr, rfl, c, hc, rfl, hbit⟩, hlit⟩
    exact ⟨r, hr, c, hc, hbit, hlit⟩

/-- The covered pixels are read off the mode, `I`, the memory and the two coordinate registers. -/
theorem State.spriteLights_congr (hmode : t.mode = s.mode) (hi : t.i = s.i) (hmem : KeepsMemory s t)
    (hx : t.getV x = s.getV x) (hy : t.getV y = s.getV y) (u v : Nat) :
    t.spriteLights x y n u v ↔ s.spriteLights x y n u v := by
  simp only [State.spriteLights, State.rowNumber, hmode, hi, hmem _, hx, hy]

end

/-! ## One `DRW` -/

section
variable {s t : State} {x y : RegIx} {n : Nibble} (h : exec (.drw x y n) s = .next t)
include h

theorem exec_drw_mode : t.mode = s.mode := by cases h; rfl

theorem exec_drw_dirty : t.dirty = s.dirty + 1 := by cases h; rfl

theorem exec_drw_keeps_memory : KeepsMemory s t := memoryHasNoOtherWriter (.drw x y n) s t h rfl

theorem exec_drw_flag : t.getV 0xF = flagByte (s.drawn x y n).2 := by
  cases h
  exact State.getV_setV_same ..

/-- A draw that leaves its coordinates as they were leaves its place: the next one covers the same pixels. -/
theorem exec_drw_same_place (hx : t.getV x = s.getV x) (hy : t.getV y = s.getV y) (u v : Nat) :
    t.spriteLights x y n u v ↔ s.spriteLights x y n u v :=
  State.spriteLights_congr (exec_drw_mode h) (by cases h; rfl) (exec_drw_keeps_memory h) hx hy u v

variable (hg : s.fb.shaped s.mode.width s.mode.height)
include hg

theorem exec_drw_toggles {u v : Nat} (hl : s.spriteLights x y n u v) : t.fb.pixel u v = !s.fb.pixel u v := by
  cases h
  exact State.pixel_drawn_of_spriteLights hg hl

theorem exec_drw_keeps_pixel {u v : Nat} (hl : ¬ s.spriteLights x y n u v) : t.fb.pixel u v = s.fb.pixel u v := by
  cases h
  exact State.pixel_drawn_of_not_spriteLights hg hl

theorem exec_drw_flag_set (hlit : ∃ u v, s.spriteLights x y n u v ∧ s.fb.pixel u v = true) : t.getV 0xF = 1 := by
  rw [exec_drw_flag h, (State.drawn_collides_iff hg).2 hlit]
  rfl

theorem exec_drw_flag_clear (hdark : ∀ u v, s.spriteLights x y n u v → s.fb.pixel u v = false) : t.getV 0xF = 0 := by
  have hmiss : (s.drawn x y n).2 = false := by
    rw [← Bool.not_eq_true, State.drawn_collides_iff hg]
    rintro ⟨u, v, hl, hlit⟩
    exact Bool.false_ne_true ((hdark u v hl).symm.trans hlit)
  rw [exec_drw_flag h, hmiss]
  rfl

end

/-- Settles O49: a pixel under the sprite and one beside it, the two values of the flag, and the frame of `DRW`. -/
theorem drwTogglesTheSpritesPixels : Obligations.DrwTogglesTheSpritesPixels := by
  refine ⟨fun x y n => decodeWord_encode (.drw x y n) rfl, fun s x y n hg => ?_⟩
  obtain ⟨t, h⟩ := exec_next (.drw x y n) s
  refine ⟨t, h, fun u v _ _ => ⟨exec_drw_toggles h hg, exec_drw_keeps_pixel h hg⟩, exec_drw_flag_set h hg,
    exec_drw_flag_clear h hg, ?_, exec_drw_dirty h, ?_, exec_drw_keeps_memory h, ?_⟩
  · exact exec_drw_mode h ▸ exec_keeps_grid_shape h hg
  · exact fun r hr => registersHaveNoOtherWriter _ s t r h (by simpa [Instr.writesV] using hr)
  · rw [exec_drw_dirty h]
    exact exec_frame h

/-- Settles O50: the second draw covers the pixels of the first, and each of them was toggled once before it. -/
theorem drawingTwiceRestores : Obligations.DrawingTwiceRestores := by
  intro s t u x y n hg h hx hy h'
  have hg' : t.fb.shaped t.mode.width t.mode.height := exec_keeps_grid_shape h hg
  have hplace (a b : Nat) : t.spriteLights x y n a b ↔ s.spriteLights x y n a b := exec_drw_same_place h hx hy a b
  refine ⟨fun a b => ?_, ?_, exec_drw_flag_set h hg, exec_drw_flag_clear h hg, ?_, fun hlit => ?_⟩
  · by_cases hl : s.spriteLights x y n a b
    · rw [exec_drw_toggles h' hg' ((hplace a b).2 hl), exec_drw_toggles h hg hl, Bool.not_not]
    · rw [exec_drw_keeps_pixel h' hg' (hl ∘ (hplace a b).1), exec_drw_keeps_pixel h hg hl]
  · rw [exec_drw_dirty h', exec_drw_dirty h]
  · rintro ⟨a, b, hl, hdark⟩
    refine exec_drw_flag_set h' hg' ⟨a, b, (hplace a b).2 hl, ?_⟩
    rw [exec_drw_toggles h hg hl, hdark, Bool.not_false]
  · refine exec_drw_flag_clear h' hg' fun a b hl' => ?_
    have hl : s.spriteLights x y n a b := (hplace a b).1 hl'
    rw [exec_drw_toggles h hg hl, hlit a b hl, Bool.not_true]

/-! ## What the host reads (R180) -/

/-- Settles O13: the size of each mode, and the two sides of the bound of `get_pixel`. -/
theorem displayReads : Obligations.DisplayReads := by
  intro s
  refine ⟨fun hm => ?_, fun hm => ?_, rfl, fun x y => ⟨fun hx hy => if_pos ⟨hx, hy⟩, fun hout => if_neg ?_⟩⟩
  · rw [State.dimensions, hm]
    rfl
  · rw [State.dimensions, hm]
    rfl
  · rintro ⟨hx, hy⟩
    exact hout.elim (Nat.not_le_of_lt hx) (Nat.not_le_of_lt hy)

end Sys2Proof.Machine

/-!
The key family (44_keys.md). A key instruction on a byte above 15 is its fault; on a byte that names a key it is one
write of `PC` after the sample of its query is taken.
-/

namespace Sys2Proof.Machine

/-! ## The sample of a key query (R249) -/

section
variable {s : State} {b : Byte} (hb : b.toNat < 16)
include hb

/-- A presented sample answers the query, and only the list of presented samples moves on. -/
theorem State.keys_of_cons {sample : KeySample} {rest : List KeySample} (h : s.keyInputs = sample :: rest) :
    s.keyPressed (b.setWidth 4) = sample[b.toNat] ∧ s.takeKeys = { s with keyInputs := rest } := by
  simp only [State.keyPressed, State.takeKeys, h, keyOperand_toNat hb, and_self]

/-- When no sample is presented a free one answers, and only the count of draws moves on. -/
theorem State.keys_of_nil (h : s.keyInputs = []) :
    s.keyPressed (b.setWidth 4) = (Config.freeKeys s.draws)[b.toNat] ∧
      s.takeKeys = { s with draws := s.draws + 1 } := by
  simp only [State.keyPressed, State.takeKeys, h, keyOperand_toNat hb, and_self]

end

/-! ## The two skips (R190 to R192) -/

section
variable {s : State} {b : Byte}

theorem State.keySkip_of_not_key (want : Bool) (hb : 15 < b.toNat) : s.keySkip want b = s.raise (.unknownKey b) := by
  obtain ⟨-, h⟩ | ⟨hkey, -⟩ := s.keySkip_cases want b
  · exact h
  · omega

theorem State.keySkip_of_key (want : Bool) (hb : b.toNat < 16) :
    s.keySkip want b = s.takeKeys.skipIf (s.keyPressed (b.setWidth 4) == want) := by
  obtain ⟨hfault, -⟩ | ⟨-, h⟩ := s.keySkip_cases want b
  · omega
  · exact h

variable {x : RegIx} (h : (s.getV x).toNat < 16)
include h

theorem exec_skpr_of_key : exec (.skpr x) s =
    .next (s.takeKeys.setPc (if s.keyPressed ((s.getV x).setWidth 4) then s.pc + 2 else s.pc)) := by
  change Host.Outcome.next (s.keySkip true (s.getV x)) = _
  rw [State.keySkip_of_key true h, State.skipIf_eq, State.takeKeys_pc, beq_true]

theorem exec_skup_of_key : exec (.skup x) s =
    .next (s.takeKeys.setPc (if s.keyPressed ((s.getV x).setWidth 4) then s.pc else s.pc + 2)) := by
  change Host.Outcome.next (s.keySkip false (s.getV x)) = _
  rw [State.keySkip_of_key false h, State.skipIf_eq, State.takeKeys_pc, beq_false]
  cases s.keyPressed ((s.getV x).setWidth 4) <;> rfl

end

/-- Settles O51: the fault above 15, and below 16 the two skips on the sample that the query takes. -/
theorem keySkips : Obligations.KeySkips := by
  refine ⟨fun x => decodeWord_encode (.skpr x) rfl, fun x => decodeWord_encode (.skup x) rfl, fun s x =>
    ⟨fun hx => ⟨?_, ?_⟩, fun hx => ⟨_, _, exec_skpr_of_key hx, exec_skup_of_key hx, fun sample rest h => ?_,
      fun h => ?_, s.memRead_takeKeys, ?_, rfl⟩⟩⟩
  · exact congrArg Host.Outcome.next (State.keySkip_of_not_key true hx)
  · exact congrArg Host.Outcome.next (State.keySkip_of_not_key false hx)
  · obtain ⟨hpressed, htake⟩ := State.keys_of_cons hx h
    rw [hpressed, htake]
    exact ⟨rfl, rfl, rfl, rfl⟩
  · obtain ⟨hpressed, htake⟩ := State.keys_of_nil hx h
    rw [hpressed, htake]
    exact ⟨rfl, rfl, h, rfl⟩
  · exact congrArg (State.setPc · _) s.takeKeys_eq

end Sys2Proof.Machine

/-!
The misc family (45_misc.md): single writes, the wait for a key, the three bytes of `BCD`, and the transfers over a
register range. The loops have their specifications in the model's laws; here they are read as what an instruction does.
-/

namespace Sys2Proof.Machine

/-! ## Timers (R200, R202, R203) -/

/-- Settles O52: one write each, of a register or of a timer. -/
theorem timerTransfers : Obligations.TimerTransfers := by
  refine ⟨fun x => ⟨?_, ?_, ?_⟩, fun s x => ⟨?_, ?_, ?_⟩⟩
  · exact decodeWord_encode (.ldFromDt x) rfl
  · exact decodeWord_encode (.ldDt x) rfl
  · exact decodeWord_encode (.ldSt x) rfl
  · exact ⟨_, rfl, s.getV_setV_same x _, onlyRegs_setV s x _⟩
  · exact ⟨_, rfl, s.setDt_dt _, s.memRead_setDt _, rfl⟩
  · exact ⟨_, rfl, s.setSt_st _, s.memRead_setSt _, rfl⟩

/-! ## The wait for a key (R201, R243 to R245) -/

section
variable {s : State} {r : RegIx} (h : s.run = .awaitingKey r)
include h

/-- In the wait `step` is a no-op (D19) that executes no word and signals the wait (R243). -/
theorem step_of_awaitingKey : step s = .next s ∧ stepReturn s = .next (none, .awaitingKey r) := by
  have hnr : s.run ≠ .running := by simp [h]
  have hstep : step s = .next s := step_of_not_running hnr
  refine ⟨hstep, ?_⟩
  rw [stepReturn_of_step hstep]
  simp only [stepReturnOf, h, executedWord_of_not_running hnr]

/-- A key event stores the key in the awaited register and ends the wait (R244). -/
theorem State.keyEvent_of_awaitingKey (k : KeyId) :
    s.keyEvent k = (s.setV r (k.setWidth 8)).setRun .running := by
  simp only [State.keyEvent, h]

/-- `quit` halts a waiting block (R245). -/
theorem State.quit_of_awaitingKey : s.quit = s.setRun .halted := by
  simp only [State.quit, h]

end

theorem toNat_setWidth_key (k : KeyId) : (k.setWidth 8 : Byte).toNat = k.toNat := by bv_omega

/-- Settles O53: the three ways on from the wait, each read off the run state that `LD Vx, K` writes. -/
theorem ldKeyWaits : Obligations.LdKeyWaits := by
  refine ⟨fun x => decodeWord_encode (.ldKey x) rfl, fun s x => ?_⟩
  have hwait : (s.setRun (.awaitingKey x)).run = .awaitingKey x := s.setRun_run _
  obtain ⟨hstep, hreturn⟩ := step_of_awaitingKey hwait
  refine ⟨s.setRun (.awaitingKey x), rfl, rfl, hstep, hreturn, fun k => ?_, ?_⟩
  · refine ⟨_, congrArg Host.Outcome.next (State.keyEvent_of_awaitingKey hwait k), ?_, rfl, ?_, rfl⟩
    · rw [State.getV_setRun, State.getV_setV_same, toNat_setWidth_key]
    · exact (onlyRegs_setV s x _).1
  · exact congrArg Host.Outcome.next (State.quit_of_awaitingKey hwait)

/-! ## The index register (R204 to R206) -/

theorem toNat_zextByte (b : Byte) : (zextByte b).toNat = b.toNat :=
  BitVec.toNat_setWidth_of_le (by decide)

/-- At 16 bytes per glyph and less, the product fits in 16 bits (D14). -/
theorem toNat_glyphAddr {size : Nat} (hsize : size ≤ 16) (b : Byte) : (glyphAddr size b).toNat = b.toNat * size := by
  have hle : b.toNat * size ≤ 255 * 16 := Nat.mul_le_mul (by omega) hsize
  rw [glyphAddr, BitVec.toNat_ofNat, Nat.mod_eq_of_lt (by omega)]

/-- Settles O54: one write of the index each, of the sum modulo 2^16 or of a glyph's address. -/
theorem indexArithmetic : Obligations.IndexArithmetic := by
  refine ⟨fun x => ⟨?_, ?_, ?_⟩, fun s x => ⟨⟨_, rfl, ?_, onlyIndex_setI s _⟩, ⟨_, rfl, ?_, onlyIndex_setI s _⟩,
    ⟨_, rfl, ?_, onlyIndex_setI s _⟩⟩⟩
  · exact decodeWord_encode (.addI x) rfl
  · exact decodeWord_encode (.ldF x) rfl
  · exact decodeWord_encode (.ldHf x) rfl
  · rw [State.setI_i, BitVec.toNat_add, toNat_zextByte]
  · exact toNat_glyphAddr (by decide) (s.getV x)
  · exact toNat_glyphAddr (by decide) (s.getV x)

/-! ## `BCD` (R207) -/

theorem toNat_bcdDigits (b : Byte) : (bcdDigits b).1.toNat = b.toNat / 100 ∧
    (bcdDigits b).2.1.toNat = b.toNat / 10 % 10 ∧ (bcdDigits b).2.2.toNat = b.toNat % 10 := by
  simp only [bcdDigits, BitVec.toNat_ofNat]
  omega

theorem State.indexed_zero (s : State) : s.indexed 0 = s.i := BitVec.add_zero s.i

theorem State.busAddr_indexed_ne (s : State) {k l : Nat} (hk : k < 16) (hl : l < 16) (hne : k ≠ l) :
    busAddr (s.indexed k) ≠ busAddr (s.indexed l) :=
  mt (busAddr_indexed_inj s hk hl) hne

/-- Three bytes stored at `I` and up do not overlap, so each is read back at its place. -/
theorem exec_bcd_spec (s : State) (x : RegIx) : ∃ t, exec (.bcd x) s = .next t ∧
    t.memRead (s.indexed 0) = (bcdDigits (s.getV x)).1 ∧ t.memRead (s.indexed 1) = (bcdDigits (s.getV x)).2.1 ∧
    t.memRead (s.indexed 2) = (bcdDigits (s.getV x)).2.2 ∧
    OnlyMemoryAt [s.indexed 0, s.indexed 1, s.indexed 2] s t := by
  have h01 : busAddr (s.indexed 0) ≠ busAddr (s.indexed 1) := s.busAddr_indexed_ne (by decide) (by decide) (by decide)
  have h02 : busAddr (s.indexed 0) ≠ busAddr (s.indexed 2) := s.busAddr_indexed_ne (by decide) (by decide) (by decide)
  have h12 : busAddr (s.indexed 1) ≠ busAddr (s.indexed 2) := s.busAddr_indexed_ne (by decide) (by decide) (by decide)
  refine ⟨_, rfl, ?_, ?_, ?_, fun a ha => ?_, rfl⟩
  · rw [State.memRead_memWrite, if_neg h02, State.memRead_memWrite, if_neg h01, State.memRead_memWrite, if_pos rfl]
  · rw [State.memRead_memWrite, if_neg h12, State.memRead_memWrite, if_pos rfl]
  · rw [State.memRead_memWrite, if_pos rfl]
  · have h0 : busAddr a ≠ busAddr (s.indexed 0) := ha _ (by simp)
    have h1 : busAddr a ≠ busAddr (s.indexed 1) := ha _ (by simp)
    have h2 : busAddr a ≠ busAddr (s.indexed 2) := ha _ (by simp)
    rw [State.memRead_memWrite, if_neg h2, State.memRead_memWrite, if_neg h1, State.memRead_memWrite, if_neg h0]

/-- Settles O55: the three stored bytes are the digits. -/
theorem bcdStoresTheDigits : Obligations.BcdStoresTheDigits := by
  refine ⟨fun x => decodeWord_encode (.bcd x) rfl, fun s x => ?_⟩
  obtain ⟨t, ht, hread0, hread1, hread2, hframe⟩ := exec_bcd_spec s x
  obtain ⟨hhundreds, htens, hones⟩ := toNat_bcdDigits (s.getV x)
  refine ⟨t, ht, ?_, ?_, ?_, hframe⟩
  · rw [← s.indexed_zero, hread0, hhundreds]
  · exact (congrArg BitVec.toNat hread1).trans htens
  · exact (congrArg BitVec.toNat hread2).trans hones

/-! ## Register ranges (R208 to R211) -/

section
variable {s t : State} {x : RegIx}

theorem exec_storeRegs_memRead (h : exec (.storeRegs x) s = .next t) {k : RegIx} (hk : k.toNat ≤ x.toNat) :
    t.memRead (s.indexed k.toNat) = s.getV k := by
  cases h
  exact storeLoop_value s (regsUpTo x) k (mem_regsUpTo.2 hk)

/-- The loop over `V0` to `Vx` stores at the offsets `0` to `x` and nowhere else. -/
theorem exec_storeRegs_keepsMemoryBut (h : exec (.storeRegs x) s = .next t) :
    KeepsMemoryBut ((List.range (x.toNat + 1)).map s.indexed) s t := by
  cases h
  intro a ha
  refine (storeLoop_frame s (regsUpTo x)).2 a fun k hk => ha _ (List.mem_map_of_mem ?_)
  exact List.mem_range.2 (Nat.lt_succ_of_le (mem_regsUpTo.1 hk))

theorem exec_loadRegs_getV (h : exec (.loadRegs x) s = .next t) (k : RegIx) :
    t.getV k = if k.toNat ≤ x.toNat then s.memRead (s.indexed k.toNat) else s.getV k := by
  cases h
  simpa only [mem_regsUpTo] using (loadLoop_spec s (regsUpTo x)).2 k

theorem exec_storeRpl_getRpl (h : exec (.storeRpl x) s = .next t) (k : RegIx) :
    t.getRpl k = if k.toNat ≤ x.toNat then s.getV k else s.getRpl k := by
  cases h
  simpa only [mem_regsUpTo] using (storeRplLoop_spec s (regsUpTo x)).2 k

theorem exec_loadRpl_getV (h : exec (.loadRpl x) s = .next t) (k : RegIx) :
    t.getV k = if k.toNat ≤ x.toNat then s.getRpl k else s.getV k := by
  cases h
  simpa only [mem_regsUpTo] using (loadRplLoop_spec s (regsUpTo x)).2 k

end

/-- Settles O56: the store loop's values and the bytes it leaves; the rest is the instruction's frame. -/
theorem storeRegsWritesTheRange : Obligations.StoreRegsWritesTheRange := by
  refine ⟨fun x => decodeWord_encode (.storeRegs x) rfl, fun s x => ?_⟩
  obtain ⟨t, h⟩ := exec_next (.storeRegs x) s
  exact ⟨t, h, fun k hk => exec_storeRegs_memRead h hk, exec_storeRegs_keepsMemoryBut h, exec_frame h⟩

/-- Settles O57: the load loop's values; the rest is the instruction's frame. -/
theorem loadRegsReadsTheRange : Obligations.LoadRegsReadsTheRange := by
  refine ⟨fun x => decodeWord_encode (.loadRegs x) rfl, fun s x => ?_⟩
  obtain ⟨t, h⟩ := exec_next (.loadRegs x) s
  exact ⟨t, h, exec_loadRegs_getV h, memoryHasNoOtherWriter _ s t h rfl, exec_frame h⟩

/-- Settles O58: the values of the two RPL loops; the rest is each instruction's frame. -/
theorem rplTransfers : Obligations.RplTransfers := by
  refine ⟨fun x => decodeWord_encode (.storeRpl x) rfl, fun x => decodeWord_encode (.loadRpl x) rfl,
    fun s x => ⟨?_, ?_⟩⟩
  · obtain ⟨t, h⟩ := exec_next (.storeRpl x) s
    exact ⟨t, h, exec_storeRpl_getRpl h, memoryHasNoOtherWriter _ s t h rfl, exec_frame h⟩
  · obtain ⟨t, h⟩ := exec_next (.loadRpl x) s
    exact ⟨t, h, exec_loadRpl_getV h, memoryHasNoOtherWriter _ s t h rfl, exec_frame h⟩

end Sys2Proof.Machine

/-!
The run states and the host's transactions (60_exceptions.md): what a step returns in every run state it can leave, the
faults an instruction raises, and what each transaction does and returns. A step with inputs is a step of the state the
inputs are presented to, so the facts about `step` and `exec` carry over.
-/

namespace Sys2Proof

open Sys2Proof.Machine

/-- The faults of execution: executed in `s`, with `PC` already advanced, the instruction raises the fault (R232, R233,
R235). -/
inductive Instr.Raises (s : State) : Instr → Fault → Prop where
  | call {nnn : Addr} (h : 0xFD < s.sp.toNat) : Raises s (.call nnn) (.stackOverflow s.sp)
  | ret (h : s.sp.toNat < 2) : Raises s .ret (.stackUnderflow s.sp)
  | skpr {x : RegIx} (h : 15 < (s.getV x).toNat) : Raises s (.skpr x) (.unknownKey (s.getV x))
  | skup {x : RegIx} (h : 15 < (s.getV x).toNat) : Raises s (.skup x) (.unknownKey (s.getV x))

end Sys2Proof

namespace Sys2Proof.Machine

/-! ## Every step and every transaction answers a next state (log 1) -/

theorem step_next (s : State) : ∃ t, step s = .next t := by
  by_cases hrun : s.run = .running
  · rw [step_of_running hrun]
    cases hdecode : decodeWord s.fetchWord with
    | ok i => rw [execWord_of_ok hdecode]; exact exec_next i s.advancePc
    | error e => exact ⟨_, execWord_of_error hdecode s.advancePc⟩
  · exact ⟨s, step_of_not_running hrun⟩

theorem transact_next (c : Transaction) (s : State) : ∃ t, transact c s = .next t := by
  cases c with
  | step keys rnd =>
    obtain ⟨t, hstep⟩ := step_next (s.present keys rnd)
    exact ⟨_, (transact_step s hstep).1⟩
  | tickTimers | load | reset | keyEvent | quit => exact ⟨_, rfl⟩

/-- Settles O4, from the step and the transactions one by one. -/
theorem everyTransactionAnswersNext : Obligations.EveryTransactionAnswersNext :=
  ⟨step_next, transact_next⟩

/-! ## What a step returns (R236, R241) -/

section
variable {s t : State}

theorem stepReturnOf_of_awaitingKey {r : RegIx} (h : t.run = .awaitingKey r) :
    stepReturnOf s t = .next (s.executedWord, .awaitingKey r) := by
  simp only [stepReturnOf, h]

/-- A step returns a fault exactly when the run state it leaves records that fault (R236, R238). -/
theorem stepReturnOf_eq_fault_iff {f : Fault} : stepReturnOf s t = .fault f ↔ t.run = .faulted f := by
  cases hrun : t.run <;> simp [stepReturnOf, hrun]

/-- An instruction that neither waits, halts nor faults keeps `Run`. -/
theorem exec_keeps_run {i : Instr} (h : exec i s = .next t) (hkey : ∀ x, i ≠ .ldKey x) (hexit : i ≠ .exit)
    (hnf : ∀ f, t.run ≠ .faulted f) : t.run = s.run := by
  obtain hkeep | ⟨hi, -⟩ | ⟨x, hi, -⟩ | ⟨_, -, -, rfl⟩ | ⟨-, -, rfl⟩ | ⟨_, -, -, rfl⟩ := exec_run h
  · exact hkeep
  · exact absurd hi hexit
  · exact absurd hi (hkey x)
  all_goals exact absurd rfl (hnf _)

end

/-- Settles O2: the step is a no-op, and what it returns is read off the run state it was called in. -/
theorem stepIsIdleOutsideRunning : Obligations.StepIsIdleOutsideRunning := by
  refine fun s => ⟨fun r h => step_of_awaitingKey h, fun h => ⟨?_, stepReturn_of_halted h⟩, fun f h => ?_⟩
  · exact step_of_not_running (by simp [h])
  · have hstep : step s = .next s := step_of_not_running (by simp [h])
    exact ⟨hstep, (stepReturn_of_step hstep).trans (stepReturnOf_of_faulted h)⟩

/-- Settles O3: the two instructions that write `Run` without a fault, and the others, which leave the block running. -/
theorem signalsOfEveryInstruction : Obligations.SignalsOfEveryInstruction := by
  intro s t i hrun hdecode hstep hnf
  have hexec : exec i s.advancePc = .next t := (step_of_decodes hdecode hrun).symm.trans hstep
  rw [stepReturn_of_step hstep, ← executedWord_of_running hrun]
  refine ⟨?_, ?_, fun hkey hexit => ?_⟩
  · rintro x rfl
    cases hexec
    exact stepReturnOf_of_awaitingKey rfl
  · rintro rfl
    cases hexec
    exact stepReturnOf_of_halted rfl
  · exact stepReturnOf_of_running ((exec_keeps_run hexec hkey hexit hnf).trans hrun)

/-! ## The faults of a step (R231 to R237) -/

section
variable {s t : State} {i : Instr} {f : Fault}

theorem exec_of_raises (h : i.Raises s f) : exec i s = .next (s.raise f) := by
  cases h with
  | call hsp => exact exec_call_of_lt _ hsp
  | ret hsp => exact exec_ret_of_lt hsp
  | skpr hkey => exact congrArg Host.Outcome.next (State.keySkip_of_not_key true hkey)
  | skup hkey => exact congrArg Host.Outcome.next (State.keySkip_of_not_key false hkey)

/-- An instruction that ends in a fault raised it, and changed nothing but `Run` (R236, R237). -/
theorem raises_of_exec (h : exec i s = .next t) (hrun : s.run = .running) (hf : t.run = .faulted f) :
    i.Raises s f ∧ t = s.raise f := by
  obtain hkeep | ⟨-, hhalt⟩ | ⟨x, -, hwait⟩ | ⟨a, rfl, hsp, rfl⟩ | ⟨rfl, hsp, rfl⟩ | ⟨x, rfl | rfl, hkey, rfl⟩ :=
    exec_run h
  · simp [hkeep, hrun] at hf
  · simp [hhalt] at hf
  · simp [hwait] at hf
  all_goals cases hf
  · exact ⟨.call hsp, rfl⟩
  · exact ⟨.ret hsp, rfl⟩
  · exact ⟨.skpr hkey, rfl⟩
  · exact ⟨.skup hkey, rfl⟩

/-- A running step on an illegal word (R231). -/
theorem step_of_rejects {e : DecodeError} (he : decodeWord s.fetchWord = .error e) (hrun : s.run = .running) :
    step s = .next (s.advancePc.raise (.unknownOpcode s.fetchWord)) :=
  (step_of_running hrun).trans (execWord_of_error he s.advancePc)

/-- A running step faults exactly when the fetched word is illegal or its instruction raises the fault (R231). -/
theorem step_faults_iff (hrun : s.run = .running) :
    (∃ t, step s = .next t ∧ t.run = .faulted f) ↔
      ((∃ e, decodeWord s.fetchWord = .error e) ∧ f = .unknownOpcode s.fetchWord) ∨
      ∃ i, decodeWord s.fetchWord = .ok i ∧ i.Raises s.advancePc f := by
  constructor
  · rintro ⟨t, hstep, hf⟩
    cases hdecode : decodeWord s.fetchWord with
    | error e =>
      rw [step_of_rejects hdecode hrun] at hstep
      cases hstep
      cases hf
      exact .inl ⟨⟨e, rfl⟩, rfl⟩
    | ok i =>
      rw [step_of_decodes hdecode hrun] at hstep
      exact .inr ⟨i, rfl, (raises_of_exec hstep hrun hf).1⟩
  · rintro (⟨⟨e, he⟩, rfl⟩ | ⟨i, hi, hraises⟩)
    · exact ⟨_, step_of_rejects he hrun, rfl⟩
    · exact ⟨_, (step_of_decodes hi hrun).trans (exec_of_raises hraises), rfl⟩

end

/-- Settles O5: the returned fault is the recorded one, and an instruction's faults are listed by `Instr.Raises`. -/
theorem stepRaisesExactlyTheListedFaults : Obligations.StepRaisesExactlyTheListedFaults := by
  intro s f hrun
  constructor
  · obtain ⟨t, hstep⟩ := step_next s
    rw [stepReturn_of_step hstep, stepReturnOf_eq_fault_iff]
    simp [hstep]
  · rw [step_faults_iff hrun]
    refine or_congr_right ⟨?_, ?_⟩
    · rintro ⟨i, hi, hsp | hsp | hkey | hkey⟩
      · exact .inl ⟨_, hi, hsp, rfl⟩
      · exact .inr (.inl ⟨hi, hsp, rfl⟩)
      · exact .inr (.inr ⟨_, .inl hi, hkey, rfl⟩)
      · exact .inr (.inr ⟨_, .inr hi, hkey, rfl⟩)
    · rintro (⟨nnn, hi, hsp, rfl⟩ | ⟨hi, hsp, rfl⟩ | ⟨x, hi | hi, hkey, rfl⟩)
      · exact ⟨_, hi, .call hsp⟩
      · exact ⟨_, hi, .ret hsp⟩
      · exact ⟨_, hi, .skpr hkey⟩
      · exact ⟨_, hi, .skup hkey⟩

/-- Settles O6: a faulted step raised its fault after the fetch or on an illegal word; a `load` that returns a fault is
the one that passes the end of memory. -/
theorem faultsArePrecise : Obligations.FaultsArePrecise := by
  refine ⟨fun s t f hrun hstep hf => ?_, fun s t bytes offset f ht hret => ?_⟩
  · obtain ⟨i, -, hexec⟩ | rfl | rfl := step_cases hstep
    · exact (raises_of_exec hexec hrun hf).2
    · cases hf; rfl
    · simp [hrun] at hf
  · simp only [transact, transactReturn] at ht hret
    obtain ⟨-, -, hnone⟩ | ⟨-, hload, hfault⟩ := load_cases s bytes offset
    · rw [hnone] at hret; cases hret
    · rw [hfault] at hret
      rw [hload] at ht
      cases hret
      cases ht
      exact ⟨fun h => State.raiseToHost_raise h _, fun h => State.raiseToHost_halted h _⟩

/-! ## Timers, key events and `quit` (R244 to R247) -/

theorem toNat_tickDown (b : Byte) : (tickDown b).toNat = b.toNat - 1 := by
  unfold tickDown
  split <;> bv_omega

/-- Settles O11: one saturating count per timer. -/
theorem ticksCountDownAndSaturate : Obligations.TicksCountDownAndSaturate :=
  fun s => ⟨s.tickTimers, rfl, toNat_tickDown s.dt, toNat_tickDown s.st, rfl⟩

section
variable {s : State}

theorem State.setRun_self {r : Run} (h : s.run = r) : s.setRun r = s := by cases h; rfl

variable (h : ∀ r, s.run ≠ .awaitingKey r)
include h

/-- Outside a wait a key event has no effect (D17). -/
theorem State.keyEvent_of_not_awaitingKey (k : KeyId) : s.keyEvent k = s := by
  unfold State.keyEvent
  split
  · next r hr => exact absurd hr (h r)
  all_goals rfl

/-- Outside a wait `quit` has no effect (D18). -/
theorem State.quit_of_not_awaitingKey : s.quit = s := by
  unfold State.quit
  split
  · next r hr => exact absurd hr (h r)
  all_goals rfl

end

/-- Settles O12: a waiting block is as `LD Vx, K` leaves it, so O53 says how its wait ends. -/
theorem keyEventAndQuitEndTheWait : Obligations.KeyEventAndQuitEndTheWait := by
  refine fun s k => ⟨fun r hwait => ?_, fun hno => ⟨?_, ?_⟩⟩
  · obtain ⟨-, hwaits⟩ := ldKeyWaits
    obtain ⟨t, -, ht, -, -, hkey, hquit⟩ := hwaits s r
    obtain rfl : t = s := ht.trans (State.setRun_self hwait)
    obtain ⟨u, hu, hvalue, hrun, hkeeps, hframe⟩ := hkey k
    exact ⟨⟨u, hu, hvalue, hkeeps, hrun, hframe⟩, hquit⟩
  · exact congrArg Host.Outcome.next (State.keyEvent_of_not_awaitingKey hno k)
  · exact congrArg Host.Outcome.next (State.quit_of_not_awaitingKey hno)

/-! ## The host's step (R251) -/

section
variable {s : State} {keys : KeySample} {rnd : Byte}

/-- Outside `Running` a step only uses up its inputs (D19). -/
theorem transact_step_of_not_running (h : s.run ≠ .running) : transact (.step keys rnd) s = .next s.dropInputs :=
  (transact_step s (step_of_not_running (s := s.present keys rnd) h)).1

theorem State.keyPressed_present {b : Byte} (hb : b.toNat < 16) :
    (s.present keys rnd).advancePc.keyPressed (b.setWidth 4) = keys[b.toNat] :=
  (State.keys_of_cons hb rfl).1

theorem State.randomByte_present : (s.present keys rnd).advancePc.randomByte = rnd := rfl

/-- The address after a skip: two advances of `PC` (R86, R120). -/
theorem State.advancePc_pc_add_two : s.advancePc.pc + 2 = s.pc + 4 := BitVec.add_assoc s.pc 2 2

variable {t : State} {x : RegIx} (hx : (s.getV x).toNat < 16)
include hx

theorem exec_skpr_present (h : exec (.skpr x) (s.present keys rnd).advancePc = .next t) :
    t.pc = if keys[(s.getV x).toNat] then s.pc + 4 else s.pc + 2 := by
  rw [exec_skpr_of_key (s := (s.present keys rnd).advancePc) hx] at h
  cases h
  rw [State.setPc_pc, State.advancePc_pc_add_two]
  exact congrArg (fun pressed : Bool => if pressed then _ else _) (State.keyPressed_present hx)

theorem exec_skup_present (h : exec (.skup x) (s.present keys rnd).advancePc = .next t) :
    t.pc = if keys[(s.getV x).toNat] then s.pc + 2 else s.pc + 4 := by
  rw [exec_skup_of_key (s := (s.present keys rnd).advancePc) hx] at h
  cases h
  rw [State.setPc_pc, State.advancePc_pc_add_two]
  exact congrArg (fun pressed : Bool => if pressed then _ else _) (State.keyPressed_present hx)

end

/-- Settles O59: the step of the state with its inputs presented, where the oldest byte and the oldest sample are the
presented ones. -/
theorem hostStepTakesItsInputs : Obligations.HostStepTakesItsInputs := by
  refine fun s keys rnd => ⟨fun hrun i hi => ?_, fun hrun e he => ?_, transact_step_of_not_running⟩
  · obtain ⟨t, hexec⟩ := exec_next i (s.present keys rnd).advancePc
    have hstep : step (s.present keys rnd) = .next t := (step_of_decodes (s := s.present keys rnd) hi hrun).trans hexec
    have hkeys : (s.present keys rnd).advancePc.keyInputs ≠ [] := List.cons_ne_nil keys []
    have hrnd : (s.present keys rnd).advancePc.rndInputs ≠ [] := List.cons_ne_nil rnd []
    have hdraws : t.draws = (s.present keys rnd).advancePc.draws := exec_draws hexec hkeys hrnd
    refine ⟨t, hexec, (transact_step s hstep).1, hdraws, ?_, fun x hx => ⟨?_, ?_⟩⟩
    · rintro x kk rfl
      cases hexec
      rw [State.getV_setV_same, State.randomByte_present]
    · rintro rfl
      exact exec_skpr_present hx hexec
    · rintro rfl
      exact exec_skup_present hx hexec
  · exact (transact_step s (step_of_rejects (s := s.present keys rnd) he hrun)).1

/-! ## What the transactions return (R236, R251) -/

section
variable {s t : State} {keys : KeySample} {rnd : Byte} (h : transact (.step keys rnd) s = .next t)
include h

/-- The inputs do not matter for what is read off the states before and after. -/
theorem stepReturn_present : stepReturn (s.present keys rnd) = stepReturnOf s t := by
  obtain ⟨u, hu⟩ := step_next (s.present keys rnd)
  obtain ⟨ht, hret⟩ := transact_step s hu
  rw [ht] at h
  cases h
  exact hret

theorem transactReturn_step_of_next {word : Option Word} {g : Signal} (hret : stepReturnOf s t = .next (word, g)) :
    transactReturn (.step keys rnd) s = .next (.executed word g) := by
  simp only [transactReturn, stepAnswer, stepReturn_present h, hret]

theorem transactReturn_step_of_fault {f : Fault} (hret : stepReturnOf s t = .fault f) :
    transactReturn (.step keys rnd) s = .fault f := by
  simp only [transactReturn, stepAnswer, stepReturn_present h, hret]

end

theorem loadReturn_of_le {bytes : List Byte} {offset : Word} (h : offset.toNat + bytes.length ≤ 4096) :
    loadReturn bytes offset = .next .nothing := if_pos ((loadFits_iff bytes offset).2 h)

theorem loadReturn_of_lt {bytes : List Byte} {offset : Word} (h : 4096 < offset.toNat + bytes.length) :
    loadReturn bytes offset = .fault (.outOfBounds offset bytes.length) :=
  if_neg (mt (loadFits_iff bytes offset).1 (Nat.not_le.2 h))

/-- `load` returns a fault exactly when it passes the end of memory (R64). -/
theorem loadReturn_eq_fault_iff {bytes : List Byte} {offset : Word} {f : Fault} :
    loadReturn bytes offset = .fault f ↔
      4096 < offset.toNat + bytes.length ∧ f = .outOfBounds offset bytes.length := by
  obtain h | h := Nat.lt_or_ge 4096 (offset.toNat + bytes.length)
  · simp [loadReturn_of_lt h, h, eq_comm]
  · simp [loadReturn_of_le h, Nat.not_lt.2 h]

/-- Settles O60: the step's return by the run state it leaves, and the two sides of `load`'s bound. -/
theorem transactionsReturnTheirOutputs : Obligations.TransactionsReturnTheirOutputs := by
  refine fun s => ⟨fun keys rnd t h => ⟨executedWord_of_running, executedWord_of_not_running, ?_, ?_, ?_, ?_⟩,
    fun _ _ _ => loadReturn_eq_fault_iff, fun _ _ => loadReturn_of_le, rfl, rfl, fun _ => rfl, rfl⟩
  · exact fun hrun => transactReturn_step_of_next h (stepReturnOf_of_running hrun)
  · exact fun r hrun => transactReturn_step_of_next h (stepReturnOf_of_awaitingKey hrun)
  · exact fun hrun => transactReturn_step_of_next h (stepReturnOf_of_halted hrun)
  · exact fun f hrun => transactReturn_step_of_fault h (stepReturnOf_of_faulted hrun)

/-! ## The end of a run (R280) -/

section
variable {s t : State}

theorem State.ended_iff : s.ended = true ↔ s.run = .halted ∨ ∃ f, s.run = .faulted f := by
  cases hrun : s.run <;> simp [State.ended, hrun]

theorem State.not_running_of_ended (h : s.ended = true) : s.run ≠ .running := by
  obtain hrun | ⟨f, hrun⟩ := State.ended_iff.1 h <;> simp [hrun]

theorem State.not_awaitingKey_of_ended (h : s.ended = true) (r : RegIx) : s.run ≠ .awaitingKey r := by
  obtain hrun | ⟨f, hrun⟩ := State.ended_iff.1 h <;> simp [hrun]

/-- `t` is `s`, but for memory, timers, the model's own inputs, and a fault in place of one recorded in `s`. -/
def KeepsEnd (s t : State) : Prop :=
  (t.run = s.run ∨ s.run ≠ .halted ∧ ∃ f, t.run = .faulted f) ∧
  t = { s with
    mem := t.mem, dt := t.dt, st := t.st, run := t.run, keyInputs := t.keyInputs, rndInputs := t.rndInputs }

theorem State.load_keepsEnd (s : State) (bytes : List Byte) (offset : Word) : KeepsEnd s (s.load bytes offset) := by
  obtain ⟨-, hload, -⟩ | ⟨-, hload, -⟩ := load_cases s bytes offset <;> rw [hload]
  · exact ⟨.inl rfl, rfl⟩
  · by_cases hhalt : s.run = .halted
    · rw [State.raiseToHost_halted hhalt]
      exact ⟨.inl rfl, rfl⟩
    · rw [State.raiseToHost_raise hhalt]
      exact ⟨.inr ⟨hhalt, _, rfl⟩, rfl⟩

/-- After the end of a run a step, a key event and `quit` have no effect, a tick counts, and a `load` copies or records
its fault. -/
theorem transact_keepsEnd {c : Transaction} (hend : s.ended = true) (hc : c ≠ .reset) (h : transact c s = .next t) :
    KeepsEnd s t := by
  cases c with
  | step keys rnd =>
    rw [transact_step_of_not_running (State.not_running_of_ended hend)] at h
    cases h
    exact ⟨.inl rfl, rfl⟩
  | tickTimers => cases h; exact ⟨.inl rfl, rfl⟩
  | load bytes offset => cases h; exact s.load_keepsEnd bytes offset
  | reset => exact absurd rfl hc
  | keyEvent k =>
    cases h
    rw [State.keyEvent_of_not_awaitingKey (State.not_awaitingKey_of_ended hend)]
    exact ⟨.inl rfl, rfl⟩
  | quit =>
    cases h
    rw [State.quit_of_not_awaitingKey (State.not_awaitingKey_of_ended hend)]
    exact ⟨.inl rfl, rfl⟩

end

/-- Settles O7: what `KeepsEnd` leaves open has no part in the claim. -/
theorem onlyResetLeavesTheEnd : Obligations.OnlyResetLeavesTheEnd := by
  intro c s t hend hc h
  obtain ⟨hrun, hframe⟩ := transact_keepsEnd hend hc h
  refine ⟨?_, fun hhalt => ?_, ?_⟩
  · obtain hsame | ⟨-, f, hf⟩ := hrun
    · rw [State.ended_iff, hsame]
      exact State.ended_iff.1 hend
    · exact State.ended_iff.2 (.inr ⟨f, hf⟩)
  · obtain hsame | ⟨hnot, -⟩ := hrun
    · rw [hsame, hhalt]
    · exact absurd hhalt hnot
  · rw [hframe]
    exact ⟨fun _ _ => rfl, rfl, rfl, rfl, rfl, rfl, rfl, rfl⟩

end Sys2Proof.Machine

/-! ## The transaction `reset` (R270) -/

namespace Sys2Proof.Machine

@[simp] theorem State.getV_resetBlock (s : State) (r : RegIx) : s.resetBlock.getV r = 0 :=
  Vector.getElem_replicate ..

@[simp] theorem State.getRpl_resetBlock (s : State) (k : RegIx) : s.resetBlock.getRpl k = 0 :=
  Vector.getElem_replicate ..

@[simp] theorem State.memRead_resetBlock (s : State) (a : Word) : s.resetBlock.memRead a = s.memRead a := rfl

/-- Settles O9: the next state is `resetBlock` whatever the run state; both register files are constant vectors, and the
other fields are assigned or kept. -/
theorem resetTransaction : Obligations.ResetTransaction :=
  fun s => ⟨s.resetBlock, rfl, s.getV_resetBlock, s.getRpl_resetBlock, rfl, rfl, rfl, rfl, rfl, rfl,
    s.memRead_resetBlock, rfl, rfl, rfl⟩

end Sys2Proof.Machine

/-! ## Words of the test vectors -/

namespace Sys2Proof

theorem decodeWord_of_encode_eq {i : Instr} {w : Word} (hwf : i.wf = true) (hw : encode i = w) :
    decodeWord w = .ok i :=
  hw ▸ decodeWord_encode i hwf

/-- `0CE0` is a word of `CLS` with bits 11:8 not 0 (R75, D5). -/
theorem decodeWord_0CE0 : decodeWord 0x0CE0 = .ok .cls := by
  have hword : wordXKK 0x0 0xC 0xE0 = 0x0CE0 := rfl
  rw [← hword, decodeWord_wordXKK_zero rfl]
  exact decodeWord_encode .cls rfl

/-- Settles O19: but for `0CE0`, each word is its instruction's own encoding, which the round trip decodes. -/
theorem sampleWordsDecode : Obligations.SampleWordsDecode :=
  ⟨decodeWord_of_encode_eq rfl rfl, decodeWord_of_encode_eq rfl rfl, decodeWord_0CE0,
    decodeWord_of_encode_eq rfl rfl, decodeWord_of_encode_eq rfl rfl,
    decodeWord_of_encode_eq rfl rfl, decodeWord_of_encode_eq rfl rfl⟩

end Sys2Proof
